-- ==== Sys2Proof/Word.lean ====
section
/-! DEFINITION. The two word types of the hardware (R3, R8): every quantity is unsigned. -/

namespace Sys2Proof

/-- A `u8`: a general register, a timer, one cell of `MEM` (R8, R10). -/
abbrev Byte := BitVec 8

/-- A `u16`: an instruction word, `PC`, `I`, `SP`, a call-stack entry (R8, R60, R13). -/
abbrev Word := BitVec 16

/-- A general register's number `x` or `y`, always in range (R10, R62). -/
abbrev Reg := Fin 16

/-- A logical key's code, 0 to 15 (R31). -/
abbrev Key := Fin 16

end Sys2Proof
end

