-- ==== Sys2Proof/Config.lean ====
section
/-! DEFINITION. What is fixed when a machine is built: the sizes of R3, the parameters of R4, and the free values
(constants without a body: nothing can evaluate them, so a statement about one holds for every value it could have). -/

namespace Sys2Proof

/-- `MEM_SIZE` (R3). -/
abbrev memSize : Nat := 4096

/-- `FONT_SIZE` (R3). -/
abbrev fontSize : Nat := 80

/-- `PROG_BASE` (R3). -/
abbrev progBase : Nat := 0x200

/-- `PROG_MAX` = 4096 - 0x200 (R3, conflict C1). -/
abbrev progMax : Nat := 3584

/-- `STACK_DEPTH` (R3). -/
abbrev stackDepth : Nat := 16

/-- The parameters of R4 that an instruction consults. -/
structure Params where
  /-- `Q_SHIFT_VY`: the shifts read `V[y]`, else `V[x]` (R130, R131). -/
  qShiftVy : Bool
  /-- `Q_LS_INC_I`: the bulk transfers add `x + 1` to `I` (R145, R146). -/
  qLsIncI : Bool
  /-- `Q_JUMP_VX`: jump-with-offset adds `V[x]`, else `V[0]` (R104). -/
  qJumpVx : Bool
  /-- `Q_ADDI_VF`: add-to-index writes `VF` (R142). -/
  qAddiVf : Bool
  /-- `ADDI_VF_LIMIT`: the threshold of that flag (R142). -/
  addiVfLimit : Word
  /-- `SKIP_UNKNOWN`: an unknown opcode is skipped, not fatal (R206). -/
  skipUnknown : Bool
deriving DecidableEq, Repr, Inhabited

/-- Which of the four events of R247 the host applies. -/
inductive EventKind where
  | step
  | tick
  | renderAck
  | reset
deriving DecidableEq, Repr, Inhabited

/-- Free value (log 3, R248): which event the host applies as the n-th of those the schedule does not give. -/
opaque Config.freeEventKind : Nat → EventKind

/-- Free values (log 3, R240): what that event, if it is a reset, constructs the machine with. -/
opaque Config.freeParams : Nat → Params

/-- Free value (log 3): the font of that reset. -/
opaque Config.freeFont : Nat → Vector Byte 80

/-- Free value (log 3): the program of that reset. -/
opaque Config.freeProgram : Nat → List Byte

/-- Free value (log 2): the keys that are down at that event, if it is a step. -/
opaque Config.freeKeys : Nat → BitVec 16

/-- Free value (log 2, R222): which key `ANYKEY` would name at that step, if it is down. -/
opaque Config.freeKeyChoice : Nat → Key

/-- Free value (log 2, log 20, R223): the random byte at that step. -/
opaque Config.freeRand : Nat → Byte

/-- Free value (log 31): what a read of a call-stack entry that does not exist would give; no run from reset reads one. -/
opaque Config.freeStackEntry : Nat → Word

end Sys2Proof
end

