-- ==== Sys2Proof/Syntax.lean ====
section
/-! DEFINITION. The instruction set: one constructor per row of the opcode table (R64), in the table's order. -/

namespace Sys2Proof

/-- The 34 instructions of R64. `x`, `y` are register numbers, `nn` a byte, `nnn` an address (held zero-extended, R63),
`n` a row count; `WellFormed.lean` bounds the last two (log 33). -/
inductive Instr where
  /-- `00E0`: clear the screen (R161). -/
  | cls
  /-- `00EE`: return (R103). -/
  | ret
  /-- `1nnn`: jump (R101). -/
  | jp (nnn : Word)
  /-- `2nnn`: call (R102). -/
  | call (nnn : Word)
  /-- `3xnn`: skip if `V[x] = nn` (R105). -/
  | seImm (x : Reg) (nn : Byte)
  /-- `4xnn`: skip if `V[x] ≠ nn` (R106). -/
  | sneImm (x : Reg) (nn : Byte)
  /-- `5xy_`: skip if `V[x] = V[y]` (R107). -/
  | seReg (x y : Reg)
  /-- `6xnn`: load immediate (R121). -/
  | ldImm (x : Reg) (nn : Byte)
  /-- `7xnn`: add immediate, no flag (R122). -/
  | addImm (x : Reg) (nn : Byte)
  /-- `8xy0`: register copy (R123). -/
  | ldReg (x y : Reg)
  /-- `8xy1`: OR (R124). -/
  | orReg (x y : Reg)
  /-- `8xy2`: AND (R125). -/
  | andReg (x y : Reg)
  /-- `8xy3`: XOR (R126). -/
  | xorReg (x y : Reg)
  /-- `8xy4`: add with carry out (R127). -/
  | addReg (x y : Reg)
  /-- `8xy5`: subtract (R128). -/
  | subReg (x y : Reg)
  /-- `8xy6`: shift right by one (R130). -/
  | shr (x y : Reg)
  /-- `8xy7`: reverse subtract (R129). -/
  | subnReg (x y : Reg)
  /-- `8xyE`: shift left by one (R131). -/
  | shl (x y : Reg)
  /-- `9xy_`: skip if `V[x] ≠ V[y]` (R108). -/
  | sneReg (x y : Reg)
  /-- `Annn`: set index (R141). -/
  | ldI (nnn : Word)
  /-- `Bnnn`: jump with offset (R104). -/
  | jpV0 (nnn : Word)
  /-- `Cxnn`: random byte under a mask (R132). -/
  | rnd (x : Reg) (nn : Byte)
  /-- `Dxyn`: draw a sprite of `n` rows (R162). -/
  | drw (x y : Reg) (n : Nat)
  /-- `Ex9E`: skip if the key is down (R171). -/
  | skp (x : Reg)
  /-- `ExA1`: skip if the key is up (R172). -/
  | sknp (x : Reg)
  /-- `Fx07`: read the delay timer (R174). -/
  | ldVxDt (x : Reg)
  /-- `Fx0A`: wait for a key (R173). -/
  | ldVxK (x : Reg)
  /-- `Fx15`: set the delay timer (R175). -/
  | ldDtVx (x : Reg)
  /-- `Fx18`: set the sound timer (R176). -/
  | ldStVx (x : Reg)
  /-- `Fx1E`: add to index (R142). -/
  | addI (x : Reg)
  /-- `Fx29`: address of a font glyph (R143). -/
  | ldF (x : Reg)
  /-- `Fx33`: store binary-coded decimal (R144). -/
  | ldB (x : Reg)
  /-- `Fx55`: bulk store (R145). -/
  | stRegs (x : Reg)
  /-- `Fx65`: bulk load (R146). -/
  | ldRegs (x : Reg)
deriving DecidableEq, Repr

end Sys2Proof
end

