-- ==== Sys2Proof/WellFormed.lean ====
section
/-! DEFINITION. Which terms of `Instr` have an encoding: an address fits twelve bits and a row count four (R62, R63).
Register numbers are in range by their type (R10). -/

namespace Sys2Proof

/-- An address field `nnn` is 0 to 4095 (R62). -/
def addressFits (nnn : Word) : Bool := nnn.toNat < 4096

/-- A row count `n` is 0 to 15 (R62). -/
def rowCountFits (n : Nat) : Bool := n < 16

/-- The fields of the instruction are those of its format (R61, R62). -/
def Instr.wellFormed : Instr → Bool
  | .jp nnn | .call nnn | .ldI nnn | .jpV0 nnn => addressFits nnn
  | .drw _ _ n => rowCountFits n
  | .cls | .ret => true
  | .seImm _ _ | .sneImm _ _ | .ldImm _ _ | .addImm _ _ | .rnd _ _ => true
  | .seReg _ _ | .sneReg _ _ => true
  | .ldReg _ _ | .orReg _ _ | .andReg _ _ | .xorReg _ _ => true
  | .addReg _ _ | .subReg _ _ | .shr _ _ | .subnReg _ _ | .shl _ _ => true
  | .skp _ | .sknp _ => true
  | .ldVxDt _ | .ldVxK _ | .ldDtVx _ | .ldStVx _ => true
  | .addI _ | .ldF _ | .ldB _ | .stRegs _ | .ldRegs _ => true

end Sys2Proof
end

