-- ==== Sys2Proof/Decode.lean ====
section
/-! DEFINITION. Decoding bytes to instructions (R60 to R70) and, after it, encoding, both from the opcode map of R64.
The opcode numbers are those the spec adopts from general knowledge (D1, log 12). -/

namespace Sys2Proof

/-- `w[hi:lo]`: the field of `w` from bit `hi` down to bit `lo` as an unsigned number (R8). -/
def field (w : Word) (hi lo : Nat) : Nat := w.toNat / 2 ^ lo % 2 ^ (hi - lo + 1)

/-- `x = w[11:8]` (R62). -/
def fieldX (w : Word) : Reg := Fin.ofNat 16 (field w 11 8)

/-- `y = w[7:4]` (R62). -/
def fieldY (w : Word) : Reg := Fin.ofNat 16 (field w 7 4)

/-- `nn = w[7:0]` (R62). -/
def fieldNn (w : Word) : Byte := BitVec.ofNat 8 (field w 7 0)

/-- `nnn = w[11:0]`, zero-extended (R62, R63). -/
def fieldNnn (w : Word) : Word := BitVec.ofNat 16 (field w 11 0)

/-- Family `0x0`: two instructions, matched on the whole word (R65; D2, log 13). -/
def decodeFamily0 (w : Word) : Option Instr :=
  match w.toNat with
  | 0x00E0 => some .cls
  | 0x00EE => some .ret
  | _ => none

/-- Family `0x8` dispatches on the low nibble (R66). -/
def decodeFamily8 (w : Word) : Option Instr :=
  match field w 3 0 with
  | 0x0 => some (.ldReg (fieldX w) (fieldY w))
  | 0x1 => some (.orReg (fieldX w) (fieldY w))
  | 0x2 => some (.andReg (fieldX w) (fieldY w))
  | 0x3 => some (.xorReg (fieldX w) (fieldY w))
  | 0x4 => some (.addReg (fieldX w) (fieldY w))
  | 0x5 => some (.subReg (fieldX w) (fieldY w))
  | 0x6 => some (.shr (fieldX w) (fieldY w))
  | 0x7 => some (.subnReg (fieldX w) (fieldY w))
  | 0xE => some (.shl (fieldX w) (fieldY w))
  | _ => none

/-- Family `0xE` dispatches on the low byte (R67). -/
def decodeFamilyE (w : Word) : Option Instr :=
  match field w 7 0 with
  | 0x9E => some (.skp (fieldX w))
  | 0xA1 => some (.sknp (fieldX w))
  | _ => none

/-- Family `0xF` dispatches on the low byte (R68). -/
def decodeFamilyF (w : Word) : Option Instr :=
  match field w 7 0 with
  | 0x07 => some (.ldVxDt (fieldX w))
  | 0x0A => some (.ldVxK (fieldX w))
  | 0x15 => some (.ldDtVx (fieldX w))
  | 0x18 => some (.ldStVx (fieldX w))
  | 0x1E => some (.addI (fieldX w))
  | 0x29 => some (.ldF (fieldX w))
  | 0x33 => some (.ldB (fieldX w))
  | 0x55 => some (.stRegs (fieldX w))
  | 0x65 => some (.ldRegs (fieldX w))
  | _ => none

/-- The two-level dispatch of R64; `none` is an unknown opcode (R70). The low nibble of families `0x5` and `0x9` is
ignored (R69, log 14). -/
def decodeWord (w : Word) : Option Instr :=
  match field w 15 12 with
  | 0x0 => decodeFamily0 w
  | 0x1 => some (.jp (fieldNnn w))
  | 0x2 => some (.call (fieldNnn w))
  | 0x3 => some (.seImm (fieldX w) (fieldNn w))
  | 0x4 => some (.sneImm (fieldX w) (fieldNn w))
  | 0x5 => some (.seReg (fieldX w) (fieldY w))
  | 0x6 => some (.ldImm (fieldX w) (fieldNn w))
  | 0x7 => some (.addImm (fieldX w) (fieldNn w))
  | 0x8 => decodeFamily8 w
  | 0x9 => some (.sneReg (fieldX w) (fieldY w))
  | 0xA => some (.ldI (fieldNnn w))
  | 0xB => some (.jpV0 (fieldNnn w))
  | 0xC => some (.rnd (fieldX w) (fieldNn w))
  | 0xD => some (.drw (fieldX w) (fieldY w) (field w 3 0))
  | 0xE => decodeFamilyE w
  | 0xF => decodeFamilyF w
  | _ => none

/-- Why a byte sequence gives no instruction. -/
inductive DecodeError where
  /-- Fewer than the two bytes of an instruction (R60). -/
  | tooShort
  /-- The word matches no row of R64 (R70). -/
  | unknownOpcode (w : Word)
deriving DecidableEq, Repr

/-- The word two bytes form, high byte first (R55). -/
def joinBytes (high low : Byte) : Word := BitVec.ofNat 16 (high.toNat * 256 + low.toNat)

/-- The high byte of a word (R55). -/
def highByte (w : Word) : Byte := BitVec.ofNat 8 (w.toNat / 256)

/-- The low byte of a word (R55). -/
def lowByte (w : Word) : Byte := BitVec.ofNat 8 w.toNat

/-- The first instruction of a byte sequence, with the bytes after it (R60). -/
def decodeBytes : List Byte → Except DecodeError (Instr × List Byte)
  | high :: low :: rest =>
    match decodeWord (joinBytes high low) with
    | some i => .ok (i, rest)
    | none => .error (.unknownOpcode (joinBytes high low))
  | [_] | [] => .error .tooShort

/-- The word of four nibbles, the family first (R61). -/
def nibbles (f x y n : Nat) : Word := BitVec.ofNat 16 (f * 4096 + x * 256 + y * 16 + n)

/-- The word of formats XNN and X: family, register, low byte (R61). -/
def wordX (f : Nat) (x : Reg) (low : Nat) : Word := BitVec.ofNat 16 (f * 4096 + x.val * 256 + low)

/-- The word of format NNN: family, address (R61). -/
def wordNnn (f : Nat) (nnn : Word) : Word := BitVec.ofNat 16 (f * 4096 + nnn.toNat)

/-- The word of a well-formed instruction (R64); `5xy_` and `9xy_` get the canonical low nibble 0 (R69). -/
def encode : Instr → Word
  | .cls => 0x00E0
  | .ret => 0x00EE
  | .jp nnn => wordNnn 0x1 nnn
  | .call nnn => wordNnn 0x2 nnn
  | .seImm x nn => wordX 0x3 x nn.toNat
  | .sneImm x nn => wordX 0x4 x nn.toNat
  | .seReg x y => nibbles 0x5 x.val y.val 0x0
  | .ldImm x nn => wordX 0x6 x nn.toNat
  | .addImm x nn => wordX 0x7 x nn.toNat
  | .ldReg x y => nibbles 0x8 x.val y.val 0x0
  | .orReg x y => nibbles 0x8 x.val y.val 0x1
  | .andReg x y => nibbles 0x8 x.val y.val 0x2
  | .xorReg x y => nibbles 0x8 x.val y.val 0x3
  | .addReg x y => nibbles 0x8 x.val y.val 0x4
  | .subReg x y => nibbles 0x8 x.val y.val 0x5
  | .shr x y => nibbles 0x8 x.val y.val 0x6
  | .subnReg x y => nibbles 0x8 x.val y.val 0x7
  | .shl x y => nibbles 0x8 x.val y.val 0xE
  | .sneReg x y => nibbles 0x9 x.val y.val 0x0
  | .ldI nnn => wordNnn 0xA nnn
  | .jpV0 nnn => wordNnn 0xB nnn
  | .rnd x nn => wordX 0xC x nn.toNat
  | .drw x y n => nibbles 0xD x.val y.val n
  | .skp x => wordX 0xE x 0x9E
  | .sknp x => wordX 0xE x 0xA1
  | .ldVxDt x => wordX 0xF x 0x07
  | .ldVxK x => wordX 0xF x 0x0A
  | .ldDtVx x => wordX 0xF x 0x15
  | .ldStVx x => wordX 0xF x 0x18
  | .addI x => wordX 0xF x 0x1E
  | .ldF x => wordX 0xF x 0x29
  | .ldB x => wordX 0xF x 0x33
  | .stRegs x => wordX 0xF x 0x55
  | .ldRegs x => wordX 0xF x 0x65

/-- The bytes of a well-formed instruction as memory holds them, high byte first (R55, R60). -/
def encodeBytes (i : Instr) : List Byte := [highByte (encode i), lowByte (encode i)]

/-- The mask and match of the instruction's row of R64: a word `w` selects the row when `w & mask = match`. -/
def tableRow : Instr → Word × Word
  | .cls => (0xFFFF, 0x00E0)
  | .ret => (0xFFFF, 0x00EE)
  | .jp _ => (0xF000, 0x1000)
  | .call _ => (0xF000, 0x2000)
  | .seImm _ _ => (0xF000, 0x3000)
  | .sneImm _ _ => (0xF000, 0x4000)
  | .seReg _ _ => (0xF000, 0x5000)
  | .ldImm _ _ => (0xF000, 0x6000)
  | .addImm _ _ => (0xF000, 0x7000)
  | .ldReg _ _ => (0xF00F, 0x8000)
  | .orReg _ _ => (0xF00F, 0x8001)
  | .andReg _ _ => (0xF00F, 0x8002)
  | .xorReg _ _ => (0xF00F, 0x8003)
  | .addReg _ _ => (0xF00F, 0x8004)
  | .subReg _ _ => (0xF00F, 0x8005)
  | .shr _ _ => (0xF00F, 0x8006)
  | .subnReg _ _ => (0xF00F, 0x8007)
  | .shl _ _ => (0xF00F, 0x800E)
  | .sneReg _ _ => (0xF000, 0x9000)
  | .ldI _ => (0xF000, 0xA000)
  | .jpV0 _ => (0xF000, 0xB000)
  | .rnd _ _ => (0xF000, 0xC000)
  | .drw _ _ _ => (0xF000, 0xD000)
  | .skp _ => (0xF0FF, 0xE09E)
  | .sknp _ => (0xF0FF, 0xE0A1)
  | .ldVxDt _ => (0xF0FF, 0xF007)
  | .ldVxK _ => (0xF0FF, 0xF00A)
  | .ldDtVx _ => (0xF0FF, 0xF015)
  | .ldStVx _ => (0xF0FF, 0xF018)
  | .addI _ => (0xF0FF, 0xF01E)
  | .ldF _ => (0xF0FF, 0xF029)
  | .ldB _ => (0xF0FF, 0xF033)
  | .stRegs _ => (0xF0FF, 0xF055)
  | .ldRegs _ => (0xF0FF, 0xF065)

/-- The word the opcode table's numbering gives: bit 0 of `w` is bit 0 of the instruction word, bits above `nbits` are 0. -/
def tableWord (nbits w : Nat) : Word := BitVec.ofNat 16 (w % 2 ^ nbits)

/-- The instruction the decoder reads from the bytes of a table word laid out as memory holds them (R55). -/
def decodeTableWord (nbits w : Nat) : Option Instr :=
  match decodeBytes [highByte (tableWord nbits w), lowByte (tableWord nbits w)] with
  | .ok (i, _) => some i
  | .error _ => none

end Sys2Proof
end

