-- ==== Sys2Proof/Machine/Frame.lean ====
section
/-! DEFINITION. The display buffer `FB` and its operations (R20, R160, R162): `clear`, `toggle`, the pixels of a sprite. -/

namespace Sys2Proof.Machine

/-- `FB[y][x]`: 32 rows of 64 pixels, true is lit; `(0, 0)` is the top-left pixel (R20, log 17). -/
abbrev Frame := Vector (Vector Bool 64) 32

/-- A pixel's place: its column, then its row. -/
abbrev Point := Fin 64 × Fin 32

/-- Every pixel false: `clear()` (R20, R161). -/
def Frame.clear : Frame := Vector.replicate 32 (Vector.replicate 64 false)

/-- `FB[y][x]` (R20). -/
def Frame.pixel (f : Frame) (p : Point) : Bool := f[p.2][p.1]

/-- The buffer after `toggle(px, py)`: that one pixel inverted (R160). What the toggle returns is the pixel before it. -/
def Frame.toggle (f : Frame) (p : Point) : Frame := f.set p.2 (f[p.2].set p.1 (!f[p.2][p.1]))

/-- Toggle the pixels one after another; the flag says whether one of them was lit when it was toggled (R162). -/
def toggleAll (points : List Point) (acc : Frame × Bool) : Frame × Bool :=
  points.foldl (fun acc p => (acc.1.toggle p, acc.2 || acc.1.pixel p)) acc

/-- Where sprite column `c` of sprite row `r` falls: coordinates wrap per pixel, modulo 64 and 32 (R162). -/
def spritePoint (xs ys : Byte) (r c : Nat) : Point := (Fin.ofNat 64 (xs.toNat + c), Fin.ofNat 32 (ys.toNat + r))

/-- The pixels row `r` of a sprite covers with a 1 bit, by rising column; bit 7 is the leftmost column (R162; D9, log 17). -/
def rowPoints (xs ys : Byte) (r : Nat) (b : Byte) : List Point :=
  ((List.range 8).filter (fun c => b.getLsbD (7 - c))).map (spritePoint xs ys r)

/-- The pixels a sprite covers with a 1 bit, by rising row, its rows numbered from `r` (R162). -/
def spritePoints (xs ys : Byte) (r : Nat) (rows : List Byte) : List Point :=
  match rows with
  | [] => []
  | b :: rest => rowPoints xs ys r b ++ spritePoints xs ys (r + 1) rest

/-- The buffer after drawing the sprite, and whether a lit pixel was turned off (R162). -/
def drawSprite (xs ys : Byte) (rows : List Byte) (f : Frame) : Frame × Bool :=
  toggleAll (spritePoints xs ys 0 rows) (f, false)

end Sys2Proof.Machine
end

