-- ==== Sys2Proof/Machine/Defaults.lean ====
section
/-! DEFINITION. What the one fixed machine of `State.reset` is built with: the default font (R242) and parameters (R4, D13). -/

namespace Sys2Proof.Machine

/-- The glyphs 0 to 7 of the default `FONT` (R242; the bytes are from general knowledge, D8, log 6). -/
def fontLow : List Byte :=
  [0xF0, 0x90, 0x90, 0x90, 0xF0] ++ [0x20, 0x60, 0x20, 0x20, 0x70] ++
  [0xF0, 0x10, 0xF0, 0x80, 0xF0] ++ [0xF0, 0x10, 0xF0, 0x10, 0xF0] ++
  [0x90, 0x90, 0xF0, 0x10, 0x10] ++ [0xF0, 0x80, 0xF0, 0x10, 0xF0] ++
  [0xF0, 0x80, 0xF0, 0x90, 0xF0] ++ [0xF0, 0x10, 0x20, 0x40, 0x40]

/-- The glyphs 8 to F of the default `FONT` (R242). -/
def fontHigh : List Byte :=
  [0xF0, 0x90, 0xF0, 0x90, 0xF0] ++ [0xF0, 0x90, 0xF0, 0x10, 0xF0] ++
  [0xF0, 0x90, 0xF0, 0x90, 0x90] ++ [0xE0, 0x90, 0xE0, 0x90, 0xE0] ++
  [0xF0, 0x80, 0x80, 0x80, 0xF0] ++ [0xE0, 0x90, 0x90, 0x90, 0xE0] ++
  [0xF0, 0x80, 0xF0, 0x80, 0xF0] ++ [0xF0, 0x80, 0xF0, 0x80, 0x80]

/-- The default `FONT`, glyph `d` at `5·d` (R41, R242). -/
def defaultFont : List Byte := fontLow ++ fontHigh

/-- The parameters of the one fixed machine D13 suggests; `SKIP_UNKNOWN` and the limit at the defaults of R4 (log 4). -/
def defaultParams : Params where
  qShiftVy := true
  qLsIncI := false
  qJumpVx := false
  qAddiVf := false
  addiVfLimit := 0x0F00
  skipUnknown := false

end Sys2Proof.Machine
end

