-- ==== Sys2Proof/Machine/Memory.lean ====
section
/-! DEFINITION. `MEM` (R19, R40 to R48): 4096 one-byte cells, held as the list of the cells that differ from their
reset contents, addresses strictly rising. -/

namespace Sys2Proof.Machine

/-- `MEM`: the listed cells; an address that is not listed holds its reset contents. -/
abbrev Memory := List Host.Cell

/-- What an address that is not listed reads as: the default font at `0x000` to `0x04F`, `0x00` elsewhere (R30, R41;
D7 and D8, log 6). -/
def Memory.unlisted (a : Nat) : Byte := defaultFont.getD a 0x00

/-- The byte `MEM[a]` (R42, R48); the bound on `a` is checked before (`boundsFault`). -/
def Memory.read (m : Memory) (a : Nat) : Byte :=
  match m with
  | [] => Memory.unlisted a
  | (k, b) :: rest => if k = a then b else Memory.read rest a

/-- Put the cell `(a, b)` in its place, in the stead of an older cell at `a`. -/
def Memory.insert (m : Memory) (a : Nat) (b : Byte) : Memory :=
  match m with
  | [] => [(a, b)]
  | (k, c) :: rest =>
    if a < k then (a, b) :: (k, c) :: rest
    else if a = k then (a, b) :: rest
    else (k, c) :: Memory.insert rest a b

/-- List no cell at `a`. -/
def Memory.erase (m : Memory) (a : Nat) : Memory := m.filter (fun c => c.1 != a)

/-- `MEM[a] <- b`; an address of 4096 or more writes nothing (R43). A cell that gets its reset contents is not listed. -/
def Memory.write (m : Memory) (a : Nat) (b : Byte) : Memory :=
  if a < memSize then
    if b = Memory.unlisted a then Memory.erase m a else Memory.insert m a b
  else m

/-- Single-byte writes at rising addresses, one after another (R47). -/
def Memory.writeBytes (m : Memory) (a : Nat) (bytes : List Byte) : Memory :=
  match bytes with
  | [] => m
  | b :: rest => Memory.writeBytes (Memory.write m a b) (a + 1) rest

/-- `n` single-byte reads at rising addresses (R47). -/
def Memory.readBytes (m : Memory) (a n : Nat) : List Byte := (List.range n).map (fun k => Memory.read m (a + k))

/-- The canonical form: addresses inside memory and strictly rising, no cell equal to its reset contents. -/
abbrev Memory.wf (m : Memory) : Prop :=
  m.Pairwise (fun p q => p.1 < q.1) ∧ ∀ c ∈ m, c.1 < memSize ∧ c.2 ≠ Memory.unlisted c.1

/-- `MEM` after `initialize()` with this font and `load_program` of this image (R242, R243). -/
def bootMemory (font program : List Byte) : Memory :=
  Memory.writeBytes (Memory.writeBytes [] 0 font) progBase program

end Sys2Proof.Machine
end

