-- ==== Sys2Proof/Machine/State.lean ====
section
/-! DEFINITION. The machine's state (`10_state.md`), the events and inputs it meets, why a step can stop, and reset. -/

namespace Sys2Proof.Machine

/-- The fatal conditions a running core can raise (R201). -/
inductive Cause where
  /-- Decode: the word matches no row of R64 (R202). -/
  | unknownOpcode
  /-- Fetch, `LD B`, `LD [I],Vx`, `LD Vx,[I]`, `DRW`: an address of 4096 or more (R203). -/
  | outOfBounds
  /-- `CALL` with `SP = 16` (R204). -/
  | stackOverflow
  /-- `RET` with `SP = 0` (R205). -/
  | stackUnderflow
  /-- `SKP`, `SKNP` with `V[x] > 15` (R207). -/
  | keyIndexOutOfRange
deriving DecidableEq, Repr

/-- The record `FAULT` holds (R22, R200). -/
structure FaultRecord where
  cause : Cause
  /-- The word fetched by the step, none if the fetch failed. -/
  opcode : Option Word
  /-- `PC` at the start of the step. -/
  addr : Word
  /-- The offending memory address for `OutOfBounds`, else equal to `addr`. -/
  info : Word
deriving DecidableEq, Repr

/-- The inputs a step samples (R31). -/
structure StepInputs where
  /-- `KEYS[k]`: logical key `k` is down. -/
  keys : BitVec 16
  /-- `ANYKEY`: the code of a key that is down, or none. -/
  anyKey : Option Key
  /-- `RAND`: an arbitrary byte. -/
  rand : Byte
deriving DecidableEq, Repr

/-- What a step reports to the host (R32, R229). -/
inductive StepResult where
  /-- An instruction was executed; or an unknown word was skipped, with its opcode and address (R206). -/
  | progress (skipped : Option (Word × Word))
  /-- `LD Vx,K` with no key down (R173). -/
  | awaitingInput
  /-- A fatal condition was raised now or earlier (R200, R213). -/
  | fault (record : FaultRecord)
deriving DecidableEq, Repr

/-- What a machine is constructed with at a reset (R4, R240): the parameters, `FONT` and `PROGRAM`. -/
structure Boot where
  params : Params
  font : Vector Byte 80
  program : List Byte
deriving DecidableEq, Repr

/-- The four events of R247, each indivisible. -/
inductive Event where
  /-- One fetch, decode, execute, with the inputs the host supplies to it (R31). -/
  | step (inputs : StepInputs)
  /-- The timer countdown (R220). -/
  | tick
  /-- The host has presented the buffer (R224). -/
  | renderAck
  /-- The construction of a fresh state (R240). -/
  | reset (boot : Boot)
deriving DecidableEq, Repr

/-- The state: what `10_state.md` gives the core, then what it is built with and its ports, then the model's own
account of the host (log 1, log 2). -/
structure State where
  /-- `V[0]` to `V[15]`; `V[15]` is `VF`, the flag (R10, R11). -/
  v : Vector Byte 16
  /-- `I` (R12). -/
  i : Word
  /-- `PC` (R13). -/
  pc : Word
  /-- `SP`, the number of stacked return addresses (R16). -/
  sp : Word
  /-- `STACK[0]` to `STACK[15]` (R17). -/
  stack : Vector Word 16
  /-- `DT` (R18). -/
  dt : Byte
  /-- `ST` (R18). -/
  st : Byte
  /-- `MEM` (R19). -/
  mem : Memory
  /-- `FB` (R20). -/
  fb : Frame
  /-- `RENDER` (R21). -/
  render : Bool
  /-- `FAULT` (R22). -/
  fault : Option FaultRecord
  /-- The construction-time parameters of R4; no instruction writes them (R23). -/
  params : Params
  /-- The inputs of the current step (R31). -/
  inputs : StepInputs
  /-- What the last step reported (R32); none before the first. -/
  result : Option StepResult
  /-- The model's own: the events the host applies next, the first at the head (R247, R248; log 1). When it is empty the
  host applies any event (log 3). -/
  schedule : List Event
  /-- The model's own: how many events were free ones (log 2, log 3). -/
  drawn : Nat
deriving DecidableEq, Repr

/-- Why a step gives no next state. A fatal condition of R201 is NOT one of these: the spec gives it a state (log 8). -/
inductive Fault where
  /-- Raised by the reset event only: `PROGRAM` is longer than 3584 bytes, so the machine never starts and no state
  exists (R208, R243). Safe: the model stops where the hardware does. -/
  | sizeExceeded
deriving DecidableEq, Repr

/-- Why an instruction has no meaning. -/
inductive Refusal where
  /-- Raised by `exec` for an instruction without a meaning, under its mnemonic; no arm does. Safe. -/
  | notModelled (mnemonic : String)
deriving DecidableEq, Repr

/-- The state after reset and load with these parameters and this memory, and nothing scheduled (R30, R240, R241; the
values but `PC`'s are D7's, log 5; those of the ports and of the model's own fields are log 2, log 9 and log 36). -/
def State.fresh (params : Params) (mem : Memory) : State where
  v := Vector.replicate 16 0x00
  i := 0x0000
  pc := 0x0200
  sp := 0
  stack := Vector.replicate 16 0x0000
  dt := 0x00
  st := 0x00
  mem := mem
  fb := Frame.clear
  render := false
  fault := none
  params := params
  inputs := { keys := 0, anyKey := none, rand := 0x00 }
  result := none
  schedule := []
  drawn := 0

/-- The machine right after reset: the default font, no program, D13's parameters (R30, R240 to R245; log 4 to 7). -/
def State.reset : State := State.fresh defaultParams []

end Sys2Proof.Machine
end

