-- ==== Sys2Proof/Machine/Ops.lean ====
section
/-! DEFINITION. The named operations the meanings share: registers, the ways an instruction ends, raising a fatal
condition, fetching and decoding, the events of the host. -/

namespace Sys2Proof.Machine

/-- What a step or an instruction answers. -/
abbrev Answer := Host.Outcome State Fault Refusal

/-- The number of `VF` (R11). -/
abbrev regVF : Reg := 15

/-- `V[x]` (R8, R10). -/
def State.getV (s : State) (x : Reg) : Byte := s.v[x]

/-- `V[x] <- b` (R8, R10). -/
def State.setV (s : State) (x : Reg) (b : Byte) : State := { s with v := s.v.set x b }

/-- `V[x] <- b`, then `VF <- flag`: with `x = 0xF` the flag remains (R120; D6, log 16). -/
def State.setVThenFlag (s : State) (x : Reg) (b flag : Byte) : State := (s.setV x b).setV regVF flag

/-- The instruction is done: `PC <- target`, result `Progress` (R14, R32). -/
def State.finishAt (s : State) (target : Word) : State :=
  { s with pc := target, result := some (.progress none) }

/-- `next`: `PC <- PC + 2` (R8, R14). -/
def State.finish (s : State) : State := s.finishAt (s.pc + 2)

/-- `PC <- PC + 4` if the condition holds, else `PC <- PC + 2` (R14). -/
def State.finishSkip (s : State) (condition : Bool) : State := s.finishAt (if condition then s.pc + 4 else s.pc + 2)

/-- The numeric code of a cause; no behaviour depends on it (R201; D5, log 35). -/
def Cause.code : Cause → Nat
  | .unknownOpcode => 1
  | .outOfBounds => 2
  | .stackOverflow => 3
  | .stackUnderflow => 4
  | .keyIndexOutOfRange => 5

/-- `raise cause(info)`: `FAULT` takes the record, the step reports it, and nothing else changes; `PC` still holds the
address of the offending instruction (R200, R210, R211; D4, log 8). There is no return from it (R212). -/
def State.raise (s : State) (cause : Cause) (opcode : Option Word) (info : Word) : State :=
  let record : FaultRecord := { cause := cause, opcode := opcode, addr := s.pc, info := info }
  { s with fault := some record, result := some (.fault record) }

/-- The lowest address of `base`, ..., `base + count - 1` that is 4096 or more, if there is one: `max(base, 0x1000)`.
The sum does not wrap (R46, R54; D3, D24, log 15, log 26). -/
def boundsFault (base : Word) (count : Nat) : Option Word :=
  if 1 ≤ count ∧ base.toNat + count - 1 ≥ memSize then
    some (if base.toNat < 0x1000 then 0x1000 else base)
  else none

/-- Run `effect` if the `count` bytes at `I` are inside memory; else raise `OutOfBounds` and change nothing (R54). -/
def withBounds (i : Instr) (count : Nat) (s : State) (effect : State) : State :=
  match boundsFault s.i count with
  | some a => s.raise .outOfBounds (some (encode i)) a
  | none => effect

/-- `STACK[k]`; there is no entry 16 or above, and what a read of one would give is free (R17; log 31). -/
def State.stackEntry (s : State) (k : Nat) : Word := s.stack.getD k (Config.freeStackEntry k)

/-- `CALL`'s push: `STACK[SP] <- PC`, `SP <- SP + 1` (R102). -/
def State.pushPc (s : State) : State :=
  { s with stack := s.stack.setIfInBounds s.sp.toNat s.pc, sp := s.sp + 1 }

/-- An unknown opcode: fatal, or skipped and reported under `SKIP_UNKNOWN` (R202, R206; D18, log 25). -/
def State.unknownOpcode (s : State) (w : Word) : State :=
  if s.params.skipUnknown then
    { s with pc := s.pc + 2, result := some (.progress (some (w, s.pc))) }
  else s.raise .unknownOpcode (some w) s.pc

/-- `(MEM[PC] << 8) | MEM[PC + 1]`, `PC + 1` without wrap (R44, R55). -/
def State.fetchedWord (s : State) : Word := joinBytes (s.mem.read s.pc.toNat) (s.mem.read (s.pc.toNat + 1))

/-- What a turn of the machine comes to before any instruction runs. -/
inductive Turn where
  /-- This instruction runs in this state. -/
  | run (i : Instr) (s : State)
  /-- No instruction runs. -/
  | over (answer : Answer)

/-- The front of a `step` event: a halted core reports its fault again and changes nothing (R213; log 8); else fetch,
then decode (R44, R64, R209; log 29). -/
def frontEnd (s : State) : Turn :=
  match s.fault with
  | some record => .over (.next { s with result := some (.fault record) })
  | none =>
    match boundsFault s.pc 2 with
    | some a => .over (.next (s.raise .outOfBounds none a))
    | none =>
      match decodeWord s.fetchedWord with
      | none => .over (.next (s.unknownOpcode s.fetchedWord))
      | some i => .run i s

/-- One timer counts down, with a floor at zero (R18, R220). -/
def countDown (t : Byte) : Byte := if t.toNat > 0 then t - 1 else t

/-- The `tick` event: both timers, each on its own condition; ignored while halted (R213, R220; D25, log 27). -/
def State.tick (s : State) : State :=
  match s.fault with
  | none => { s with dt := countDown s.dt, st := countDown s.st }
  | some _ => s

/-- The `render_ack` event: `RENDER <- false`, halted or not (R213, R224). -/
def State.renderAck (s : State) : State := { s with render := false }

/-- The `reset` event: a fresh state with the font and the program in memory, or no machine at all when the program is
too long (R208, R240 to R243; D23, log 10, log 11). The model's own fields stay. -/
def State.resetEvent (s : State) (boot : Boot) : Answer :=
  if boot.program.length > progMax then .fault .sizeExceeded
  else
    .next { State.fresh boot.params (bootMemory boot.font.toList boot.program) with
      schedule := s.schedule, drawn := s.drawn }

/-- A key that is down, the preferred one if it is; none if no key is down (R31, R222; D11, log 19). -/
def chooseKey (keys : BitVec 16) (preferred : Key) : Option Key :=
  if keys.getLsbD preferred.val then some preferred
  else (List.finRange 16).find? (fun k => keys.getLsbD k.val)

/-- Inputs under no law but that of R222: those of the `n`-th event the schedule does not give, if a step (log 2). -/
def freeInputs (n : Nat) : StepInputs where
  keys := Config.freeKeys n
  anyKey := chooseKey (Config.freeKeys n) (Config.freeKeyChoice n)
  rand := Config.freeRand n

/-- The construction of the `n`-th event the schedule does not give, if a reset (R240; log 3). -/
def freeBoot (n : Nat) : Boot where
  params := Config.freeParams n
  font := Config.freeFont n
  program := Config.freeProgram n

/-- The `n`-th event the schedule does not give: any of the four (R247, R248; log 3). -/
def freeEvent (n : Nat) : Event :=
  match Config.freeEventKind n with
  | .step => .step (freeInputs n)
  | .tick => .tick
  | .renderAck => .renderAck
  | .reset => .reset (freeBoot n)

/-- The event the host applies next: the head of the schedule; when that is empty, any event (R248; log 1, log 3). -/
def State.nextEvent (s : State) : Event :=
  match s.schedule with
  | e :: _ => e
  | [] => freeEvent s.drawn

/-- The host's next event is taken off: only the model's own fields move (log 1, log 3). -/
def State.popEvent (s : State) : State :=
  match s.schedule with
  | _ :: rest => { s with schedule := rest }
  | [] => { s with drawn := s.drawn + 1 }

/-- The inputs of a `step` event are at the ports (R31). -/
def State.present (s : State) (inputs : StepInputs) : State := { s with inputs := inputs }

/-- One event of the host (R247). -/
def takeTurn (s : State) : Turn :=
  match s.nextEvent with
  | .step inputs => frontEnd (s.popEvent.present inputs)
  | .tick => .over (.next s.popEvent.tick)
  | .renderAck => .over (.next s.popEvent.renderAck)
  | .reset boot => .over (s.popEvent.resetEvent boot)

/-- The events of the schedule from its first `step` event on. -/
def fromNextStep (events : List Event) : List Event :=
  match events with
  | .step inputs :: rest => .step inputs :: rest
  | .tick :: rest | .renderAck :: rest | .reset _ :: rest => fromNextStep rest
  | [] => []

/-- The state whose next event is a `step`: the schedule from its first one on, or one with free inputs (log 7). -/
def State.stepNext (s : State) : State :=
  match fromNextStep s.schedule with
  | [] => { s with schedule := [.step (freeInputs s.drawn)], drawn := s.drawn + 1 }
  | events => { s with schedule := events }

/-- The state with `w` stored where the next `step` fetches, and that step next: not halted, no other event before it,
`PC` at the entry point if it is where no fetch can succeed (R44, R55; log 7). -/
def State.placeWord (s : State) (w : Word) : State :=
  let pc : Word := if s.pc.toNat ≤ 0x0FFE then s.pc else 0x0200
  { s.stepNext with
    pc := pc
    mem := s.mem.writeBytes pc.toNat [highByte w, lowByte w]
    fault := none }

end Sys2Proof.Machine
end

