-- ==== Sys2Proof/Machine/Operands.lean ====
section
/-! DEFINITION. The operand forms: what an instruction reads, and the addresses and digits it forms from it. -/

namespace Sys2Proof.Machine

/-- The source of a shift: `V[y]` under `Q_SHIFT_VY`, else `V[x]` (R130, R131; D13, log 4). -/
def shiftSource (x y : Reg) (s : State) : Byte := if s.params.qShiftVy then s.getV y else s.getV x

/-- The register number in bits 11:8 of an address field (R62, R104). -/
def addressX (nnn : Word) : Reg := Fin.ofNat 16 (field nnn 11 8)

/-- The offset of jump-with-offset: `V[x]` under `Q_JUMP_VX`, else `V[0]` (R104; D13, log 4). -/
def jumpOffset (nnn : Word) (s : State) : Byte := if s.params.qJumpVx then s.getV (addressX nnn) else s.getV 0

/-- `zext_16(b)` (R8). -/
def zext16 (b : Byte) : Word := b.setWidth 16

/-- The key number a key query names, if it is one (R171, R172; D10, log 18). -/
def keyNumber (b : Byte) : Option Key := if h : b.toNat < 16 then some ⟨b.toNat, h⟩ else none

/-- `KEYS[k]`: key `k` is down at this step (R31). -/
def keyDown (k : Key) (s : State) : Bool := s.inputs.keys.getLsbD k.val

/-- `zext_8` of a key's code (R173; D26, log 28). -/
def keyByte (k : Key) : Byte := BitVec.ofNat 8 k.val

/-- The digits of `LD B,Vx`: hundreds, tens, units (R144). -/
def bcdDigits (b : Byte) : List Byte :=
  [BitVec.ofNat 8 (b.toNat / 100), BitVec.ofNat 8 (b.toNat / 10 % 10), BitVec.ofNat 8 (b.toNat % 10)]

/-- `V[0]` to `V[x]`, in order: what a bulk store writes (R145). -/
def regsUpTo (x : Reg) (s : State) : List Byte := s.v.toList.take (x.val + 1)

/-- The registers after a bulk load of `V[0]` to `V[x]` from `I` on (R146). -/
def regsLoaded (x : Reg) (s : State) : Vector Byte 16 :=
  Vector.ofFn (fun k : Reg => if k.val ≤ x.val then s.mem.read (s.i.toNat + k.val) else s.v[k])

/-- `I` after a bulk transfer: `I + x + 1` under `Q_LS_INC_I`, else as before (R145, R146; D14, log 21). -/
def indexAfterBulk (x : Reg) (s : State) : Word :=
  if s.params.qLsIncI then s.i + BitVec.ofNat 16 (x.val + 1) else s.i

/-- The rows of a sprite: `n` bytes at `I` (R162). -/
def spriteRows (n : Nat) (s : State) : List Byte := s.mem.readBytes s.i.toNat n

end Sys2Proof.Machine
end

