-- ==== Sys2Proof/Machine/ControlFlow.lean ====
section
/-! DEFINITION. Control transfer (`40_control_flow.md`, R100 to R109). A target is not checked when it is set (R100). -/

namespace Sys2Proof.Machine

/-- `JP nnn` (R101). -/
def execJp (nnn : Word) (s : State) : Answer := .next (s.finishAt nnn)

/-- `CALL nnn`: pushes its own address (R102). -/
def execCall (nnn : Word) (s : State) : Answer :=
  if s.sp = 16 then .next (s.raise .stackOverflow (some (encode (.call nnn))) s.pc)
  else .next (s.pushPc.finishAt nnn)

/-- `RET`: `STACK[SP]` read after the decrement, plus 2 (R103). -/
def execRet (s : State) : Answer :=
  if s.sp = 0 then .next (s.raise .stackUnderflow (some (encode .ret)) s.pc)
  else .next ({ s with sp := s.sp - 1 }.finishAt (s.stackEntry (s.sp - 1).toNat + 2))

/-- `JP V0,nnn`: the sum is not reduced to 12 bits (R104). -/
def execJpV0 (nnn : Word) (s : State) : Answer := .next (s.finishAt (nnn + zext16 (jumpOffset nnn s)))

/-- `SE Vx,nn` (R105). -/
def execSeImm (x : Reg) (nn : Byte) (s : State) : Answer := .next (s.finishSkip (s.getV x == nn))

/-- `SNE Vx,nn` (R106). -/
def execSneImm (x : Reg) (nn : Byte) (s : State) : Answer := .next (s.finishSkip (s.getV x != nn))

/-- `SE Vx,Vy` (R107). -/
def execSeReg (x y : Reg) (s : State) : Answer := .next (s.finishSkip (s.getV x == s.getV y))

/-- `SNE Vx,Vy` (R108). -/
def execSneReg (x y : Reg) (s : State) : Answer := .next (s.finishSkip (s.getV x != s.getV y))

end Sys2Proof.Machine
end

