-- ==== Sys2Proof/Machine/Flags.lean ====
section
/-! DEFINITION. Every computation of a value for `VF`, the one flag (R11), on unbounded naturals (R8). -/

namespace Sys2Proof.Machine

/-- A flag write stores the full byte `0x00` or `0x01` (R11). -/
def flagByte (b : Bool) : Byte := if b then 0x01 else 0x00

/-- Carry of `ADD Vx,Vy`: the sum exceeds 255 (R127). -/
def carryFlag (a b : Byte) : Byte := flagByte (decide (a.toNat + b.toNat > 255))

/-- Not-borrow of `a - b`: no borrow is needed, equal operands included (R128, R129). -/
def noBorrowFlag (a b : Byte) : Byte := flagByte (decide (a.toNat ≥ b.toNat))

/-- The bit a right shift by one moves out (R130). -/
def lowBitFlag (s : Byte) : Byte := flagByte (s.getLsbD 0)

/-- The bit a left shift by one moves out (R131). -/
def highBitFlag (s : Byte) : Byte := flagByte (s.getLsbD 7)

/-- The flag of `ADD I,Vx` under `Q_ADDI_VF`: the sum before the wrap exceeds the limit (R142; D15, log 22). -/
def indexFlag (limit index : Word) (vx : Byte) : Byte := flagByte (decide (index.toNat + vx.toNat > limit.toNat))

/-- The collision flag of `DRW` (R162). -/
def collisionFlag (hit : Bool) : Byte := flagByte hit

end Sys2Proof.Machine
end

