-- ==== Sys2Proof/Machine/Display.lean ====
section
/-! DEFINITION. The display instructions (`43_display.md`, R160 to R163). Both set `RENDER` whether or not a pixel
changed (R160; D16, log 23). -/

namespace Sys2Proof.Machine

/-- `CLS` (R161). -/
def execCls (s : State) : Answer := .next { s with fb := Frame.clear, render := true }.finish

/-- `DRW Vx,Vy,n`: XOR the sprite into the buffer, `VF` is the collision (R162). -/
def execDrw (x y : Reg) (n : Nat) (s : State) : Answer :=
  let drawn := drawSprite (s.getV x) (s.getV y) (spriteRows n s) s.fb
  .next (withBounds (.drw x y n) n s
    ({ s with fb := drawn.1, render := true }.setV regVF (collisionFlag drawn.2)).finish)

end Sys2Proof.Machine
end

