-- ==== Sys2Proof/Machine/IndexMemory.lean ====
section
/-! DEFINITION. The index register and memory transfers (`42_index_memory.md`, R140 to R147). -/

namespace Sys2Proof.Machine

/-- `LD I,nnn` (R141). -/
def execLdI (nnn : Word) (s : State) : Answer := .next { s with i := nnn }.finish

/-- `ADD I,Vx`: wraps at 16 bits; `VF` is written, last, under `Q_ADDI_VF` only (R142; D15, log 22). -/
def execAddI (x : Reg) (s : State) : Answer :=
  let sum : State := { s with i := s.i + zext16 (s.getV x) }
  .next (if s.params.qAddiVf then sum.setV regVF (indexFlag s.params.addiVfLimit s.i (s.getV x)) else sum).finish

/-- `LD F,Vx`: the whole byte times 5 (R143; log 34). -/
def execLdF (x : Reg) (s : State) : Answer := .next { s with i := zext16 (s.getV x) * 5 }.finish

/-- `LD B,Vx`: hundreds, tens, units at `I`, `I + 1`, `I + 2` (R144). -/
def execLdB (x : Reg) (s : State) : Answer :=
  .next (withBounds (.ldB x) 3 s { s with mem := s.mem.writeBytes s.i.toNat (bcdDigits (s.getV x)) }.finish)

/-- `LD [I],Vx`: bulk store (R145). -/
def execStRegs (x : Reg) (s : State) : Answer :=
  .next (withBounds (.stRegs x) (x.val + 1) s
    { s with mem := s.mem.writeBytes s.i.toNat (regsUpTo x s), i := indexAfterBulk x s }.finish)

/-- `LD Vx,[I]`: bulk load (R146). -/
def execLdRegs (x : Reg) (s : State) : Answer :=
  .next (withBounds (.ldRegs x) (x.val + 1) s { s with v := regsLoaded x s, i := indexAfterBulk x s }.finish)

end Sys2Proof.Machine
end

