-- ==== Sys2Proof/Machine/KeypadTimers.lean ====
section
/-! DEFINITION. The keypad and timer instructions (`44_keypad_timers.md`, R170 to R177). -/

namespace Sys2Proof.Machine

/-- `SKP Vx`: skip if the key is down; a code above 15 is fatal (R171; D10, log 18). -/
def execSkp (x : Reg) (s : State) : Answer :=
  match keyNumber (s.getV x) with
  | some k => .next (s.finishSkip (keyDown k s))
  | none => .next (s.raise .keyIndexOutOfRange (some (encode (.skp x))) s.pc)

/-- `SKNP Vx`: skip if the key is up (R172). -/
def execSknp (x : Reg) (s : State) : Answer :=
  match keyNumber (s.getV x) with
  | some k => .next (s.finishSkip (!keyDown k s))
  | none => .next (s.raise .keyIndexOutOfRange (some (encode (.sknp x))) s.pc)

/-- `LD Vx,K`: the code of a key that is down; with none, nothing changes and the result is `AwaitingInput` (R173). -/
def execLdVxK (x : Reg) (s : State) : Answer :=
  .next (match s.inputs.anyKey with
    | none => { s with result := some .awaitingInput }
    | some k => (s.setV x (keyByte k)).finish)

/-- `LD Vx,DT` (R174). -/
def execLdVxDt (x : Reg) (s : State) : Answer := .next (s.setV x s.dt).finish

/-- `LD DT,Vx` (R175). -/
def execLdDtVx (x : Reg) (s : State) : Answer := .next { s with dt := s.getV x }.finish

/-- `LD ST,Vx` (R176). No instruction reads `ST` (R177; D28, log 30). -/
def execLdStVx (x : Reg) (s : State) : Answer := .next { s with st := s.getV x }.finish

end Sys2Proof.Machine
end

