-- ==== Sys2Proof/Machine/RegisterAlu.lean ====
section
/-! DEFINITION. Register load, arithmetic and logic (`41_register_alu.md`, R120 to R133). None can fault (R120). -/

namespace Sys2Proof.Machine

/-- `LD Vx,nn` (R121). -/
def execLdImm (x : Reg) (nn : Byte) (s : State) : Answer := .next (s.setV x nn).finish

/-- `ADD Vx,nn`: no flag (R122). -/
def execAddImm (x : Reg) (nn : Byte) (s : State) : Answer := .next (s.setV x (s.getV x + nn)).finish

/-- `LD Vx,Vy` (R123). -/
def execLdReg (x y : Reg) (s : State) : Answer := .next (s.setV x (s.getV y)).finish

/-- `OR Vx,Vy`: no flag (R124). -/
def execOrReg (x y : Reg) (s : State) : Answer := .next (s.setV x (s.getV x ||| s.getV y)).finish

/-- `AND Vx,Vy`: no flag (R125). -/
def execAndReg (x y : Reg) (s : State) : Answer := .next (s.setV x (s.getV x &&& s.getV y)).finish

/-- `XOR Vx,Vy`: no flag (R126). -/
def execXorReg (x y : Reg) (s : State) : Answer := .next (s.setV x (s.getV x ^^^ s.getV y)).finish

/-- `ADD Vx,Vy`: `VF` is the carry (R127). -/
def execAddReg (x y : Reg) (s : State) : Answer :=
  .next (s.setVThenFlag x (s.getV x + s.getV y) (carryFlag (s.getV x) (s.getV y))).finish

/-- `SUB Vx,Vy`: `VF` is not-borrow (R128). -/
def execSubReg (x y : Reg) (s : State) : Answer :=
  .next (s.setVThenFlag x (s.getV x - s.getV y) (noBorrowFlag (s.getV x) (s.getV y))).finish

/-- `SUBN Vx,Vy`: the operands of `SUB` exchanged (R129). -/
def execSubnReg (x y : Reg) (s : State) : Answer :=
  .next (s.setVThenFlag x (s.getV y - s.getV x) (noBorrowFlag (s.getV y) (s.getV x))).finish

/-- `SHR Vx{,Vy}`: logical, by one (R130). -/
def execShr (x y : Reg) (s : State) : Answer :=
  .next (s.setVThenFlag x (shiftSource x y s >>> 1) (lowBitFlag (shiftSource x y s))).finish

/-- `SHL Vx{,Vy}`: by one (R131). -/
def execShl (x y : Reg) (s : State) : Answer :=
  .next (s.setVThenFlag x (shiftSource x y s <<< 1) (highBitFlag (shiftSource x y s))).finish

/-- `RND Vx,nn`: the input `RAND` under the mask (R132; D12, log 20). -/
def execRnd (x : Reg) (nn : Byte) (s : State) : Answer := .next (s.setV x (s.inputs.rand &&& nn)).finish

end Sys2Proof.Machine
end

