-- ==== Sys2Proof/Machine/Step.lean ====
section
/-! DEFINITION. One step of the machine: one event of R247. -/

namespace Sys2Proof.Machine

/-- One event of the host, the head of the schedule or a free one; a `step` that fetches an instruction executes it (R247,
R248; log 1, log 3). -/
def step (s : State) : Host.Outcome State Fault Refusal :=
  match takeTurn s with
  | .run i t => exec i t
  | .over answer => answer

/-- The state whose very next step runs the instruction that word `w` of the opcode table is (log 7). -/
def State.withFetchWord (s : State) (nbits w : Nat) : State := s.placeWord (tableWord nbits w)

end Sys2Proof.Machine
end

