-- ==== Sys2Proof/Safety.lean ====
section
/-! DEFINITION. The terms claims are stated in: running and halted, what a step event sees, what a raise and the shapes of
instruction leave unchanged, the invariant of the machine, the pixels of a sprite. -/

namespace Sys2Proof.Machine

/-- `FAULT` is empty: the core is not halted (R22, R213). -/
abbrev State.running (s : State) : Prop := s.fault = none

/-- The next event of `s` is a `step`, scheduled or free, and `t` is `s` with that event taken off and its inputs at the
ports (R31, R247). Nothing but `inputs` and the model's own fields differs between the two. -/
def StepEvent (s t : State) : Prop := ∃ inputs, s.nextEvent = .step inputs ∧ t = s.popEvent.present inputs

/-- The word at `PC`, high byte first (R44, R55). -/
def WordAtPc (s : State) (w : Word) : Prop :=
  s.pc.toNat ≤ 0x0FFE ∧ w.toNat = (s.mem.read s.pc.toNat).toNat * 256 + (s.mem.read (s.pc.toNat + 1)).toNat

/-- `t` is `s` after raising the fatal condition of this record: nothing but `FAULT` and the result differs (R200, R211). -/
def RaisesOnly (s t : State) (record : FaultRecord) : Prop :=
  t = { s with fault := some record, result := some (.fault record) }

/-- `t` is `s` with `V[x]` written and the instruction completed: every other register and all other state as before. -/
def WritesOneRegister (s t : State) (x : Reg) (value : Byte) : Prop :=
  t.v[x] = value ∧ (∀ r : Reg, r ≠ x → t.v[r] = s.v[r]) ∧
  t = { s with v := t.v, pc := s.pc + 2, result := some (.progress none) }

/-- `t` is `s` with `V[x]`, then `VF`, written and the instruction completed: with `x = 0xF` the flag is what `VF` holds;
every other register and all other state as before (R120). -/
def WritesRegisterThenFlag (s t : State) (x : Reg) (value flag : Byte) : Prop :=
  (x ≠ 15 → t.v[x] = value) ∧ t.v[(15 : Reg)] = flag ∧ (∀ r : Reg, r ≠ x → r ≠ 15 → t.v[r] = s.v[r]) ∧
  t = { s with v := t.v, pc := s.pc + 2, result := some (.progress none) }

/-- The sprite that `DRW Vx,Vy,n` draws in `s` covers this pixel with a 1 bit (R162). -/
def SpriteCovers (s : State) (x y : Reg) (n : Nat) (p : Point) : Prop :=
  ∃ r c, r < n ∧ c < 8 ∧ (s.mem.read (s.i.toNat + r)).getLsbD (7 - c) = true ∧
    p.1.val = (s.v[x].toNat + c) % 64 ∧ p.2.val = (s.v[y].toNat + r) % 32

/-- The registers an instruction may write (R10, R11). -/
def MayWriteRegister (p : Params) : Instr → Reg → Prop
  | .ldImm x _, r | .addImm x _, r | .rnd x _, r => r = x
  | .ldReg x _, r | .orReg x _, r | .andReg x _, r | .xorReg x _, r => r = x
  | .addReg x _, r | .subReg x _, r | .subnReg x _, r | .shr x _, r | .shl x _, r => r = x ∨ r = 15
  | .ldVxK x, r | .ldVxDt x, r => r = x
  | .ldRegs x, r => r ≤ x
  | .drw _ _ _, r => r = 15
  | .addI _, r => p.qAddiVf = true ∧ r = 15
  | .cls, _ | .ret, _ | .jp _, _ | .call _, _ | .jpV0 _, _ | .ldI _, _ => False
  | .seImm _ _, _ | .sneImm _ _, _ | .seReg _ _, _ | .sneReg _ _, _ => False
  | .skp _, _ | .sknp _, _ | .ldDtVx _, _ | .ldStVx _, _ => False
  | .ldF _, _ | .ldB _, _ | .stRegs _, _ => False

/-- The instructions that read an input of the step (R31). -/
def ReadsInput : Instr → Bool
  | .skp _ | .sknp _ | .ldVxK _ | .rnd _ _ => true
  | .cls | .ret | .jp _ | .call _ | .jpV0 _ | .ldI _ => false
  | .seImm _ _ | .sneImm _ _ | .seReg _ _ | .sneReg _ _ => false
  | .ldImm _ _ | .addImm _ _ | .ldReg _ _ | .orReg _ _ | .andReg _ _ | .xorReg _ _ => false
  | .addReg _ _ | .subReg _ _ | .subnReg _ _ | .shr _ _ | .shl _ _ => false
  | .ldVxDt _ | .ldDtVx _ | .ldStVx _ | .drw _ _ _ => false
  | .addI _ | .ldF _ | .ldB _ | .stRegs _ | .ldRegs _ => false

/-- The inputs of a step agree: `ANYKEY` is none exactly when no key is down, and else names a key that is (R222). -/
def StepInputs.consistent (p : StepInputs) : Prop :=
  (p.anyKey = none ↔ p.keys = 0) ∧ ∀ k, p.anyKey = some k → p.keys.getLsbD k.val = true

/-- An event supplies consistent inputs, if it supplies any (R222). -/
def Event.consistent : Event → Prop
  | .step inputs => inputs.consistent
  | .tick | .renderAck | .reset _ => True

/-- The inputs at the ports and all those the host will supply are consistent (R222). -/
def State.inputsConsistent (s : State) : Prop := s.inputs.consistent ∧ ∀ e ∈ s.schedule, e.consistent

/-- The invariant of the machine. -/
structure State.Inv (s : State) : Prop where
  /-- Memory is in its canonical form, every listed address inside it (R40). -/
  memory : s.mem.wf
  /-- `SP` is 0 to 16 (R16). -/
  stackPointer : s.sp.toNat ≤ 16
  /-- A stacked return address is the address of a `CALL` that was fetched (R103). -/
  returnAddresses : ∀ k : Fin 16, k.val < s.sp.toNat → s.stack[k].toNat ≤ 0x0FFE
  /-- `PC` never passes `0x10FE` (R15). -/
  programCounter : s.pc.toNat ≤ 0x10FE
  /-- A halted core's `PC` is the address its record names (R211). -/
  haltedAt : ∀ record, s.fault = some record → record.addr = s.pc

end Sys2Proof.Machine
end

