-- ==== Sys2Proof/Certificates/Slice0/Obligations.lean ====
section
/-! DEFINITION. The statements for the provers. Each docstring says which statement of the spec it formalises. -/

open Sys2Proof Sys2Proof.Machine

/-! ## Encoding -/

/-- Decoding the bytes of every well-formed instruction, every operand at every value its field admits, gives the
instruction back and leaves the bytes after it (R60, R62, R64; the opcode numbers are D1's, log 12). -/
def Obligations.DecodeOfEncodeIsTheInstruction : Prop :=
  ∀ (i : Instr) (rest : List Byte), i.wellFormed = true → decodeBytes (encodeBytes i ++ rest) = .ok (i, rest)

/-- Every word that decodes gives a well-formed instruction of a row of R64 the word selects, and is that instruction's
own word, but for the low nibble of `5xy_` and `9xy_`, which is ignored (R64, R69; D1, log 12, log 14). -/
def Obligations.DecodedWordIsItsEncoding : Prop :=
  ∀ (w : Word) (i : Instr), decodeWord w = some i →
    i.wellFormed = true ∧ w &&& (tableRow i).1 = (tableRow i).2 ∧
    (w = encode i ∨ ((∃ x y, i = .seReg x y ∨ i = .sneReg x y) ∧ w &&& (0xFFF0 : Word) = encode i))

/-- A word is an unknown opcode exactly when it selects no row of R64 (R64, R70; D1, D2, log 12, log 13). -/
def Obligations.UnknownExactlyWhenNoRowMatches : Prop :=
  ∀ w : Word, decodeWord w = none ↔ ∀ i : Instr, w &&& (tableRow i).1 ≠ (tableRow i).2

/-- The complete set of unknown words, family by family (R65 to R68, R70; D1, D2, log 12, log 13). -/
def Obligations.UnknownWordsByFamily : Prop :=
  ∀ w : Word, decodeWord w = none ↔
    (w.toNat < 0x1000 ∧ w ≠ 0x00E0 ∧ w ≠ 0x00EE) ∨
    (w.toNat / 4096 = 0x8 ∧ w.toNat % 16 ∈ [0x8, 0x9, 0xA, 0xB, 0xC, 0xD, 0xF]) ∨
    (w.toNat / 4096 = 0xE ∧ w.toNat % 256 ∉ [0x9E, 0xA1]) ∨
    (w.toNat / 4096 = 0xF ∧ w.toNat % 256 ∉ [0x07, 0x0A, 0x15, 0x18, 0x1E, 0x29, 0x33, 0x55, 0x65])

/-- The low nibble of a `5xy_` or `9xy_` word is ignored: `0x5121` executes exactly as `0x5120` (R69; log 14). -/
def Obligations.LowNibbleOfFamilies5And9Ignored : Prop :=
  ∀ (x y : Reg) (n : Nat), n < 16 →
    decodeWord (nibbles 0x5 x.val y.val n) = some (.seReg x y) ∧
    decodeWord (nibbles 0x9 x.val y.val n) = some (.sneReg x y)

/-- A sample of words, of families 1, 6, 8, D and F, written out from their patterns in R64, decode to the instructions they
stand for, and `0xFFFF` to none (D1, log 12). -/
def Obligations.SampleWordsDecode : Prop :=
  decodeWord 0b0001001100000000 = some (.jp 0x300) ∧
  decodeWord 0b0110000011001000 = some (.ldImm 0 0xC8) ∧
  decodeWord 0b1000000000010100 = some (.addReg 0 1) ∧
  decodeWord 0b1111001001100101 = some (.ldRegs 2) ∧
  decodeWord 0b1101000000010010 = some (.drw 0 1 2) ∧
  decodeWord 0b1111001100001010 = some (.ldVxK 3) ∧
  decodeWord 0xFFFF = none

/-! ## Control transfer -/

/-- `JP nnn` sets `PC` to exactly `nnn` and changes nothing else (R101). -/
def Obligations.JumpSetsPcExactly : Prop :=
  ∀ (nnn : Word) (s : State),
    exec (.jp nnn) s = .next { s with pc := nnn, result := some (.progress none) }

/-- `CALL nnn`: with room on the stack it stacks its own address and jumps; with sixteen addresses stacked it raises
`StackOverflow` and changes nothing (R102, R204; the latch is D4's, log 8). -/
def Obligations.CallStacksItsOwnAddress : Prop :=
  ∀ (nnn : Word) (s : State),
    (s.sp.toNat < 16 → ∃ t, exec (.call nnn) s = .next t ∧
      (∀ k : Fin 16, t.stack[k] = if k.val = s.sp.toNat then s.pc else s.stack[k]) ∧
      t.sp.toNat = s.sp.toNat + 1 ∧
      t = { s with stack := t.stack, sp := t.sp, pc := nnn, result := some (.progress none) }) ∧
    (s.sp = 16 → ∃ t, exec (.call nnn) s = .next t ∧
      RaisesOnly s t ⟨.stackOverflow, some (encode (.call nnn)), s.pc, s.pc⟩)

/-- `RET`: continues two bytes after the address stacked last; with an empty stack it raises `StackUnderflow` and changes
nothing (R103, R205; the latch is D4's, log 8). -/
def Obligations.ReturnGoesTwoPastTheStackedAddress : Prop :=
  ∀ s : State,
    (∀ k : Fin 16, s.sp.toNat = k.val + 1 → ∃ t, exec .ret s = .next t ∧
      t.sp.toNat = k.val ∧ t.pc.toNat = (s.stack[k].toNat + 2) % 65536 ∧
      t = { s with sp := t.sp, pc := t.pc, result := some (.progress none) }) ∧
    (s.sp = 0 → ∃ t, exec .ret s = .next t ∧ RaisesOnly s t ⟨.stackUnderflow, some 0x00EE, s.pc, s.pc⟩)

/-- After `CALL nnn` then immediately `RET`, `PC` is two past the call and `SP` is back (R102, R103). -/
def Obligations.CallThenReturnRoundTrip : Prop :=
  ∀ (nnn : Word) (s t : State), s.sp.toNat < 16 → exec (.call nnn) s = .next t →
    ∃ u, exec .ret t = .next u ∧ u.pc = s.pc + 2 ∧ u.sp = s.sp ∧
      u = { s with stack := t.stack, pc := u.pc, result := some (.progress none) }

/-- `JP V0,nnn`: the sum of the address and `V[0]`, or `V[x]` under `Q_JUMP_VX`, not reduced to 12 bits; nothing else
changes (R104; the toggle is D13's, the width D24's, log 4, log 26). -/
def Obligations.JumpWithOffsetAddsTheRegister : Prop :=
  ∀ (nnn : Word) (x : Reg) (s : State), nnn.toNat < 4096 → x.val = nnn.toNat / 256 →
    ∃ t, exec (.jpV0 nnn) s = .next t ∧
      t.pc.toNat = nnn.toNat + (if s.params.qJumpVx then s.v[x] else s.v[(0 : Reg)]).toNat ∧
      t = { s with pc := t.pc, result := some (.progress none) }

/-- The four skips on registers and immediates: `PC + 4` if the condition holds, else `PC + 2`; nothing else changes
(R105 to R108). -/
def Obligations.SkipsAdvanceByFourOrTwo : Prop :=
  ∀ (x y : Reg) (nn : Byte) (s : State),
    exec (.seImm x nn) s =
      .next { s with pc := if s.v[x] = nn then s.pc + 4 else s.pc + 2, result := some (.progress none) } ∧
    exec (.sneImm x nn) s =
      .next { s with pc := if s.v[x] ≠ nn then s.pc + 4 else s.pc + 2, result := some (.progress none) } ∧
    exec (.seReg x y) s =
      .next { s with pc := if s.v[x] = s.v[y] then s.pc + 4 else s.pc + 2, result := some (.progress none) } ∧
    exec (.sneReg x y) s =
      .next { s with pc := if s.v[x] ≠ s.v[y] then s.pc + 4 else s.pc + 2, result := some (.progress none) }

/-! ## Register load, arithmetic and logic -/

/-- `LD Vx,nn` and `LD Vx,Vy` write `V[x]` and nothing else, `VF` as a plain register included (R121, R123). -/
def Obligations.LoadsWriteTheirRegister : Prop :=
  ∀ (x y : Reg) (nn : Byte) (s : State),
    (∃ t, exec (.ldImm x nn) s = .next t ∧ WritesOneRegister s t x nn) ∧
    (∃ t, exec (.ldReg x y) s = .next t ∧ WritesOneRegister s t x s.v[y])

/-- `ADD Vx,nn` adds modulo 256 and writes no flag (R122). -/
def Obligations.AddImmediateWrapsWithoutFlag : Prop :=
  ∀ (x : Reg) (nn : Byte) (s : State),
    ∃ t, exec (.addImm x nn) s = .next t ∧ WritesOneRegister s t x (BitVec.ofNat 8 ((s.v[x].toNat + nn.toNat) % 256))

/-- `OR`, `AND`, `XOR` are bitwise, in place on `V[x]`, and leave `VF` alone (R124, R125, R126). -/
def Obligations.LogicIsBitwiseWithoutFlag : Prop :=
  ∀ (x y : Reg) (s : State),
    (∃ t b, exec (.orReg x y) s = .next t ∧ WritesOneRegister s t x b ∧
      ∀ k < 8, b.getLsbD k = (s.v[x].getLsbD k || s.v[y].getLsbD k)) ∧
    (∃ t b, exec (.andReg x y) s = .next t ∧ WritesOneRegister s t x b ∧
      ∀ k < 8, b.getLsbD k = (s.v[x].getLsbD k && s.v[y].getLsbD k)) ∧
    (∃ t b, exec (.xorReg x y) s = .next t ∧ WritesOneRegister s t x b ∧
      ∀ k < 8, b.getLsbD k = (s.v[x].getLsbD k ^^ s.v[y].getLsbD k))

/-- `ADD Vx,Vy`: the low byte of the sum, and `VF` 1 exactly when the sum exceeds 255. With `x = 0xF` the flag is what
`VF` holds, which is D6's order (R127; log 16). -/
def Obligations.AddRegisterSetsCarry : Prop :=
  ∀ (x y : Reg) (s : State),
    ∃ t, exec (.addReg x y) s = .next t ∧
      WritesRegisterThenFlag s t x (BitVec.ofNat 8 ((s.v[x].toNat + s.v[y].toNat) % 256))
        (if s.v[x].toNat + s.v[y].toNat > 255 then 1 else 0)

/-- `SUB` and `SUBN`: the difference modulo 256, and `VF` 1 exactly when no borrow is needed, equal operands included. With
`x = 0xF` the flag is what `VF` holds, which is D6's order (R128, R129; log 16). -/
def Obligations.SubtractsSetNotBorrow : Prop :=
  ∀ (x y : Reg) (s : State),
    (∃ t, exec (.subReg x y) s = .next t ∧
      WritesRegisterThenFlag s t x (BitVec.ofNat 8 ((s.v[x].toNat + 256 - s.v[y].toNat) % 256))
        (if s.v[x].toNat ≥ s.v[y].toNat then 1 else 0)) ∧
    (∃ t, exec (.subnReg x y) s = .next t ∧
      WritesRegisterThenFlag s t x (BitVec.ofNat 8 ((s.v[y].toNat + 256 - s.v[x].toNat) % 256))
        (if s.v[y].toNat ≥ s.v[x].toNat then 1 else 0))

/-- `SHR` and `SHL` shift `V[y]` under `Q_SHIFT_VY`, else `V[x]`, by one, and `VF` is the bit shifted out. With `x = 0xF`
the flag is what `VF` holds (R130, R131, R133; D6 and D13, log 4, log 16). -/
def Obligations.ShiftsByOneSetTheBitShiftedOut : Prop :=
  ∀ (x y : Reg) (s : State) (source : Byte), source = (if s.params.qShiftVy then s.v[y] else s.v[x]) →
    (∃ t, exec (.shr x y) s = .next t ∧
      WritesRegisterThenFlag s t x (BitVec.ofNat 8 (source.toNat / 2)) (BitVec.ofNat 8 (source.toNat % 2))) ∧
    (∃ t, exec (.shl x y) s = .next t ∧
      WritesRegisterThenFlag s t x (BitVec.ofNat 8 (2 * source.toNat % 256)) (BitVec.ofNat 8 (source.toNat / 128)))

/-- `RND Vx,nn`: every bit of `RAND` where the mask has a 1, and 0 elsewhere; no flag. It holds for every `RAND` (R132;
D12, log 20). -/
def Obligations.RandomByteUnderTheMask : Prop :=
  ∀ (x : Reg) (nn : Byte) (s : State),
    ∃ t b, exec (.rnd x nn) s = .next t ∧ WritesOneRegister s t x b ∧
      ∀ k < 8, b.getLsbD k = if nn.getLsbD k then s.inputs.rand.getLsbD k else false

/-! ## Index and memory -/

/-- `LD I,nnn` sets `I` to the address, `LD F,Vx` to five times the whole byte; nothing else changes (R141, R143; that
`LD F,Vx` does not mask a byte above 15 is DEDUCED, log 34, U10). -/
def Obligations.IndexLoads : Prop :=
  ∀ (nnn : Word) (x : Reg) (s : State),
    exec (.ldI nnn) s = .next { s with i := nnn, pc := s.pc + 2, result := some (.progress none) } ∧
    ∃ t, exec (.ldF x) s = .next t ∧ t.i.toNat = s.v[x].toNat * 5 ∧
      t = { s with i := t.i, pc := s.pc + 2, result := some (.progress none) }

/-- `ADD I,Vx`: the sum modulo 65536; `VF` is left alone, but under `Q_ADDI_VF` it is 1 exactly when the sum before the
wrap exceeds the limit, and the last write (R142; D6, D15, D24, log 16, log 22, log 26). -/
def Obligations.AddToIndexWrapsAndMayFlag : Prop :=
  ∀ (x : Reg) (s : State),
    ∃ t, exec (.addI x) s = .next t ∧
      t.i.toNat = (s.i.toNat + s.v[x].toNat) % 65536 ∧
      (∀ r : Reg, r ≠ 15 → t.v[r] = s.v[r]) ∧
      t.v[(15 : Reg)] = (if s.params.qAddiVf then
        (if s.i.toNat + s.v[x].toNat > s.params.addiVfLimit.toNat then 1 else 0) else s.v[(15 : Reg)]) ∧
      t = { s with i := t.i, v := t.v, pc := s.pc + 2, result := some (.progress none) }

/-- `LD B,Vx` stores hundreds, tens, units at `I`, `I + 1`, `I + 2`, every other byte of memory as before; with an address
outside memory it raises `OutOfBounds` for the lowest one and writes nothing (R144; D3, D4, log 8, log 15). -/
def Obligations.BcdStoresThreeDigits : Prop :=
  ∀ (x : Reg) (s : State),
    (s.i.toNat + 2 < 4096 → ∃ t, exec (.ldB x) s = .next t ∧
      (t.mem.read s.i.toNat).toNat = s.v[x].toNat / 100 ∧
      (t.mem.read (s.i.toNat + 1)).toNat = s.v[x].toNat / 10 % 10 ∧
      (t.mem.read (s.i.toNat + 2)).toNat = s.v[x].toNat % 10 ∧
      (∀ a, a < s.i.toNat ∨ s.i.toNat + 2 < a → t.mem.read a = s.mem.read a) ∧
      t = { s with mem := t.mem, pc := s.pc + 2, result := some (.progress none) }) ∧
    (4096 ≤ s.i.toNat + 2 → ∃ t a, exec (.ldB x) s = .next t ∧ a.toNat = max s.i.toNat 0x1000 ∧
      RaisesOnly s t ⟨.outOfBounds, some (encode (.ldB x)), s.pc, a⟩)

/-- `LD [I],Vx` stores `V[0]` to `V[x]` from `I` on, every other byte of memory as before, and moves `I` past them under
`Q_LS_INC_I`; with an address outside memory it raises `OutOfBounds` for the lowest one and writes nothing (R145; D3, D4,
D14, log 8, log 15, log 21). -/
def Obligations.BulkStoreWritesTheRegisters : Prop :=
  ∀ (x : Reg) (s : State),
    (s.i.toNat + x.val < 4096 → ∃ t, exec (.stRegs x) s = .next t ∧
      (∀ k : Reg, k ≤ x → t.mem.read (s.i.toNat + k.val) = s.v[k]) ∧
      (∀ a, a < s.i.toNat ∨ s.i.toNat + x.val < a → t.mem.read a = s.mem.read a) ∧
      t.i.toNat = s.i.toNat + (if s.params.qLsIncI then x.val + 1 else 0) ∧
      t = { s with mem := t.mem, i := t.i, pc := s.pc + 2, result := some (.progress none) }) ∧
    (4096 ≤ s.i.toNat + x.val → ∃ t a, exec (.stRegs x) s = .next t ∧ a.toNat = max s.i.toNat 0x1000 ∧
      RaisesOnly s t ⟨.outOfBounds, some (encode (.stRegs x)), s.pc, a⟩)

/-- `LD Vx,[I]` loads `V[0]` to `V[x]` from `I` on, the other registers and memory as before, and moves `I` past them under
`Q_LS_INC_I`; with an address outside memory it raises `OutOfBounds` for the lowest one and loads nothing (R146; D3, D4,
D14, log 8, log 15, log 21). -/
def Obligations.BulkLoadReadsTheRegisters : Prop :=
  ∀ (x : Reg) (s : State),
    (s.i.toNat + x.val < 4096 → ∃ t, exec (.ldRegs x) s = .next t ∧
      (∀ k : Reg, t.v[k] = if k ≤ x then s.mem.read (s.i.toNat + k.val) else s.v[k]) ∧
      t.i.toNat = s.i.toNat + (if s.params.qLsIncI then x.val + 1 else 0) ∧
      t = { s with v := t.v, i := t.i, pc := s.pc + 2, result := some (.progress none) }) ∧
    (4096 ≤ s.i.toNat + x.val → ∃ t a, exec (.ldRegs x) s = .next t ∧ a.toNat = max s.i.toNat 0x1000 ∧
      RaisesOnly s t ⟨.outOfBounds, some (encode (.ldRegs x)), s.pc, a⟩)

/-- A bulk store over the instruction that follows it is what the very next step executes (R52, which the
spec derives, R145). -/
def Obligations.StoreIntoTheInstructionStreamIsFetched : Prop :=
  ∀ (x : Reg) (i : Instr) (s t u : State), s.running → 1 ≤ x.val → s.i = s.pc + 2 → s.i.toNat + x.val < 4096 →
    decodeBytes [s.v[(0 : Reg)], s.v[(1 : Reg)]] = .ok (i, []) →
    exec (.stRegs x) s = .next t → StepEvent t u → step t = exec i u

/-! ## Display -/

/-- `CLS` sets every pixel false and `RENDER` true, changed or not, and changes nothing else (R161; D16, log 23). -/
def Obligations.ClearScreenClearsEveryPixel : Prop :=
  ∀ s : State, ∃ t, exec .cls s = .next t ∧ (∀ p, t.fb.pixel p = false) ∧
    t = { s with fb := t.fb, render := true, pc := s.pc + 2, result := some (.progress none) }

/-- `DRW Vx,Vy,n` inverts exactly the pixels the sprite covers with a 1 bit, wrapping at 64 and 32, writes `VF` 1 exactly
when one of them was lit, sets `RENDER`, and changes nothing else; with a row outside memory it raises `OutOfBounds` for
the lowest one and draws nothing (R162, R163; D3, D4, D6, D9, D16, log 8, 15, 16, 17, 23). -/
def Obligations.DrawXorsTheCoveredPixels : Prop :=
  ∀ (x y : Reg) (n : Nat) (s : State), n < 16 →
    (n = 0 ∨ s.i.toNat + n ≤ 4096 → ∃ t, exec (.drw x y n) s = .next t ∧
      (∀ p, SpriteCovers s x y n p → t.fb.pixel p = !s.fb.pixel p) ∧
      (∀ p, ¬ SpriteCovers s x y n p → t.fb.pixel p = s.fb.pixel p) ∧
      ((∃ p, SpriteCovers s x y n p ∧ s.fb.pixel p = true) → t.v[(15 : Reg)] = 1) ∧
      ((∀ p, SpriteCovers s x y n p → s.fb.pixel p = false) → t.v[(15 : Reg)] = 0) ∧
      (∀ r : Reg, r ≠ 15 → t.v[r] = s.v[r]) ∧
      t = { s with fb := t.fb, v := t.v, render := true, pc := s.pc + 2, result := some (.progress none) }) ∧
    (1 ≤ n ∧ 4096 < s.i.toNat + n → ∃ t a, exec (.drw x y n) s = .next t ∧ a.toNat = max s.i.toNat 0x1000 ∧
      RaisesOnly s t ⟨.outOfBounds, some (encode (.drw x y n)), s.pc, a⟩)

/-- Drawing the identical sprite at the identical position twice restores the buffer; the second flag is 1 exactly when a
covered pixel was unlit before the first draw (R163(b), which the spec derives from R162; which pixels a sprite covers
rests on the bit order, D9's and PRESUMED, log 17). -/
def Obligations.DrawTwiceRestoresTheBuffer : Prop :=
  ∀ (x y : Reg) (n : Nat) (s t u : State), n < 16 → (n = 0 ∨ s.i.toNat + n ≤ 4096) → x ≠ 15 → y ≠ 15 →
    exec (.drw x y n) s = .next t → exec (.drw x y n) t = .next u →
    u.fb = s.fb ∧ (u.v[(15 : Reg)] = 1 ↔ ∃ p, SpriteCovers s x y n p ∧ s.fb.pixel p = false)

/-! ## Keypad and timers -/

/-- `SKP` and `SKNP` skip by the key's state at this step and change nothing else; a key number above 15 raises
`KeyIndexOutOfRange` and changes nothing (R171, R172; D4, D10, log 8, log 18). -/
def Obligations.KeySkipsFollowTheKey : Prop :=
  ∀ (x : Reg) (s : State),
    (s.v[x].toNat ≤ 15 →
      exec (.skp x) s = .next { s with
        pc := if s.inputs.keys.getLsbD s.v[x].toNat then s.pc + 4 else s.pc + 2, result := some (.progress none) } ∧
      exec (.sknp x) s = .next { s with
        pc := if s.inputs.keys.getLsbD s.v[x].toNat then s.pc + 2 else s.pc + 4, result := some (.progress none) }) ∧
    (15 < s.v[x].toNat →
      (∃ t, exec (.skp x) s = .next t ∧
        RaisesOnly s t ⟨.keyIndexOutOfRange, some (encode (.skp x)), s.pc, s.pc⟩) ∧
      (∃ t, exec (.sknp x) s = .next t ∧
        RaisesOnly s t ⟨.keyIndexOutOfRange, some (encode (.sknp x)), s.pc, s.pc⟩))

/-- `LD Vx,K`: with a key down its code goes to `V[x]`; with none, no state changes at all and the result is
`AwaitingInput` (R173; D26, log 28). -/
def Obligations.GetKeyWaitsWithoutChange : Prop :=
  ∀ (x : Reg) (s : State),
    (∀ k, s.inputs.anyKey = some k →
      ∃ t, exec (.ldVxK x) s = .next t ∧ WritesOneRegister s t x (BitVec.ofNat 8 k.val)) ∧
    (s.inputs.anyKey = none → exec (.ldVxK x) s = .next { s with result := some .awaitingInput })

/-- While no key is down the wait goes on for any number of steps: after all of them the machine's state is what it was
(R24, R173, R228; the wait as a result and no state change, D26, log 28). -/
def Obligations.GetKeyStallsWhileNoKeyIsDown : Prop :=
  ∀ (x : Reg) (w : Word) (waits : List StepInputs) (s : State),
    s.running → WordAtPc s w → decodeWord w = some (.ldVxK x) → (∀ p ∈ waits, p.anyKey = none) →
    s.schedule = waits.map Event.step →
    ∃ t, core.run waits.length s = .next t ∧
      t = { s with schedule := [], inputs := t.inputs, result := t.result }

/-- `LD Vx,DT`, `LD DT,Vx`, `LD ST,Vx` copy between `V[x]` and the timer and change nothing else (R174, R175, R176). -/
def Obligations.TimerCopies : Prop :=
  ∀ (x : Reg) (s : State),
    (∃ t, exec (.ldVxDt x) s = .next t ∧ WritesOneRegister s t x s.dt) ∧
    exec (.ldDtVx x) s = .next { s with dt := s.v[x], pc := s.pc + 2, result := some (.progress none) } ∧
    exec (.ldStVx x) s = .next { s with st := s.v[x], pc := s.pc + 2, result := some (.progress none) }

/-! ## Steps and events -/

/-- When the two bytes at `PC` decode to an instruction, a step of a running machine is that instruction's meaning in the
state with the step's inputs at the ports (R44, R55, R64; the inputs come from the model's schedule, log 1, log 2). -/
def Obligations.StepRunsTheDecodedInstruction : Prop :=
  ∀ (s t : State) (i : Instr), StepEvent s t → s.running → s.pc.toNat ≤ 0x0FFE →
    decodeBytes [s.mem.read s.pc.toNat, s.mem.read (s.pc.toNat + 1)] = .ok (i, []) → step s = exec i t

/-- The fetched word is big-endian: what a step runs is what the word with `MEM[PC]` as its high byte decodes to, whatever
the parity of `PC` (R55; no alignment check is D17's, log 24). -/
def Obligations.FetchIsBigEndian : Prop :=
  ∀ (s t : State) (w : Word) (i : Instr), StepEvent s t → s.running → WordAtPc s w → decodeWord w = some i →
    step s = exec i t

/-- A fetch with `PC` above `0x0FFE` raises `OutOfBounds` with no opcode and the lowest bad address, and changes nothing
(R44, R203; D3, D4, log 8, log 15). -/
def Obligations.FetchOutsideMemoryFaults : Prop :=
  ∀ s t : State, StepEvent s t → s.running → 0x0FFE < s.pc.toNat →
    ∃ u a, step s = .next u ∧ a.toNat = max s.pc.toNat 0x1000 ∧ RaisesOnly t u ⟨.outOfBounds, none, s.pc, a⟩

/-- An unknown word is fatal and the record carries it, or, under `SKIP_UNKNOWN`, it is skipped and reported and nothing
else changes (R202, R206; D4, D18, log 8, log 25). -/
def Obligations.UnknownOpcodeFaultsOrIsSkipped : Prop :=
  ∀ (s t : State) (w : Word), StepEvent s t → s.running → WordAtPc s w → decodeWord w = none →
    (s.params.skipUnknown = false → ∃ u, step s = .next u ∧ RaisesOnly t u ⟨.unknownOpcode, some w, s.pc, s.pc⟩) ∧
    (s.params.skipUnknown = true →
      step s = .next { t with pc := s.pc + 2, result := some (.progress (some (w, s.pc))) })

/-- A halted core's step changes nothing and reports the latched record again; its tick changes nothing either, but
that the event is taken off, in the model's own fields (R213; D19, log 8). -/
def Obligations.HaltedCoreDoesNothing : Prop :=
  ∀ (s t : State) (record : FaultRecord), s.fault = some record →
    (StepEvent s t → step s = .next { t with result := some (.fault record) }) ∧
    (s.nextEvent = .tick → step s = .next s.popEvent)

/-- A timer set to `v` reaches zero after `v` ticks and stays there: `n` ticks take `n` off each timer, down to zero, and
change nothing else; with `n = 1` this is the tick itself, floor at zero (R18, R220, R221; that one tick does both is D25's,
log 27). -/
def Obligations.TicksRunATimerDownToZero : Prop :=
  ∀ (n : Nat) (s : State) (rest : List Event), s.running → s.schedule = List.replicate n .tick ++ rest →
    ∃ t, core.run n s = .next t ∧ t.dt.toNat = s.dt.toNat - n ∧ t.st.toNat = s.st.toNat - n ∧
      t = { s with dt := t.dt, st := t.st, schedule := rest }

/-- `render_ack` clears `RENDER` and nothing else (R224; the event is taken off, in the model's own fields), in a halted machine too (D19, log 8). -/
def Obligations.RenderAckClearsTheFlag : Prop :=
  ∀ s : State, s.nextEvent = .renderAck → step s = .next { s.popEvent with render := false }

/-- Reset enters at `0x200` (R13, R245). -/
def Obligations.ResetEntersAt0x200 : Prop :=
  State.reset.pc = 0x0200 ∧
  ∀ (s t : State) (boot : Boot), s.nextEvent = .reset boot → step s = .next t → t.pc = 0x0200

/-- The reset event, from any state, halted or not: a fresh state with the font and the program in memory and every other
piece of state at the values of R30 (all but `PC`'s D7's, log 5, log 6), or no machine when the program is longer than 3584
bytes (R30, R240 to R243; D23, log 10). -/
def Obligations.ResetEventBuildsAFreshState : Prop :=
  ∀ (s : State) (boot : Boot), s.nextEvent = .reset boot →
    (boot.program.length ≤ 3584 → ∃ t, step s = .next t ∧
      (∀ j (h : j < 80), t.mem.read j = boot.font[j]) ∧
      (∀ j (h : j < boot.program.length), t.mem.read (0x200 + j) = boot.program[j]) ∧
      (∀ a, (0x50 ≤ a ∧ a < 0x200) ∨ (0x200 + boot.program.length ≤ a ∧ a < 4096) → t.mem.read a = 0) ∧
      (∀ r : Reg, t.v[r] = 0) ∧ (∀ k : Fin 16, t.stack[k] = 0) ∧ (∀ p, t.fb.pixel p = false) ∧
      t.pc = 0x0200 ∧ t.i = 0 ∧ t.sp = 0 ∧ t.dt = 0 ∧ t.st = 0 ∧ t.render = false ∧ t.fault = none ∧
      t.params = boot.params ∧ t.schedule = s.popEvent.schedule) ∧
    (3584 < boot.program.length → step s = .fault .sizeExceeded)

/-- Where the word at `PC` is the jump to its own address, a step leaves all state unchanged (R252, a convention of the
spec, D21). -/
def Obligations.JumpToSelfChangesNothing : Prop :=
  ∀ (s t : State) (w : Word), StepEvent s t → s.running → WordAtPc s w → w.toNat = 0x1000 + s.pc.toNat →
    step s = .next { t with result := some (.progress none) }

/-! ## Fatal conditions -/

/-- A step that raises a fatal condition changes nothing but `FAULT`, and the record names the step's own `PC` (R200, R211;
D4, log 8). -/
def Obligations.RaisingStepIsPrecise : Prop :=
  ∀ s t u : State, StepEvent s t → s.running → step s = .next u → u.fault ≠ none →
    ∃ record, RaisesOnly t u record ∧ record.addr = s.pc

/-- The record of a step whose fetch succeeded carries the word fetched, whichever instruction raised it (R200; the model
forms it by encoding, log 32). -/
def Obligations.FaultRecordCarriesTheFetchedWord : Prop :=
  ∀ (s t u : State) (w : Word) (record : FaultRecord), StepEvent s t → s.running → WordAtPc s w → step s = .next u →
    u.fault = some record → record.opcode = some w

/-- Which instruction can raise what: `CALL` only `StackOverflow`, `RET` only `StackUnderflow`, the four memory instructions
only `OutOfBounds`, `SKP` and `SKNP` only `KeyIndexOutOfRange`, every other instruction none (R209, which the spec derives;
D27, log 29). -/
def Obligations.EachInstructionRaisesOneCauseAtMost : Prop :=
  ∀ (i : Instr) (s t : State) (record : FaultRecord), exec i s = .next t → s.running → t.fault = some record →
    (record.cause = .stackOverflow ∧ ∃ nnn, i = .call nnn) ∨
    (record.cause = .stackUnderflow ∧ i = .ret) ∨
    (record.cause = .outOfBounds ∧ ∃ x, i = .ldB x ∨ i = .stRegs x ∨ i = .ldRegs x ∨ ∃ y n, i = .drw x y n) ∨
    (record.cause = .keyIndexOutOfRange ∧ ∃ x, i = .skp x ∨ i = .sknp x)

/-- The only way out of the halted state is reset: every other event keeps the record, and every piece of the core's state
but `RENDER` (R212; that a halted core's step and tick keep all of it is the spec's choice in R213, D19, log 8, log 27). -/
def Obligations.OnlyResetLeavesTheHaltedState : Prop :=
  ∀ (s t : State) (record : FaultRecord), s.fault = some record → (∀ boot, s.nextEvent ≠ .reset boot) →
    step s = .next t →
    t = { s with render := t.render, inputs := t.inputs, result := t.result, schedule := t.schedule, drawn := t.drawn }

/-- No instruction stops the machine: in every state each answers a next state, the fatal conditions among them (R200,
R201; log 8). -/
def Obligations.EveryInstructionAnswersANextState : Prop :=
  ∀ (i : Instr) (s : State), ∃ t, exec i s = .next t

/-- The one way a step gives no next state is a reset with a program that is too long (R208, R243; D23, log 10). -/
def Obligations.OnlyAnOversizeLoadStops : Prop :=
  ∀ s : State, (∃ t, step s = .next t) ∨
    (step s = .fault .sizeExceeded ∧ ∃ boot, s.nextEvent = .reset boot ∧ 3584 < boot.program.length)

/-! ## Whole-machine rules -/

/-- Every instruction ends by setting `PC` in one of the ways of R14 (that a raise leaves `PC` alone is D4's, the two forms of
jump-with-offset D13's, log 4, log 8). -/
def Obligations.EveryWayPcIsSet : Prop :=
  ∀ (i : Instr) (s t : State), exec i s = .next t → s.running →
    if t.fault ≠ none then t.pc = s.pc else
    match i with
    | .jp nnn | .call nnn => t.pc = nnn
    | .jpV0 nnn => ∃ r : Reg, t.pc.toNat = (nnn.toNat + s.v[r].toNat) % 65536 ∧
        (r = 0 ∨ (s.params.qJumpVx = true ∧ r.val = nnn.toNat / 256 % 16))
    | .ret => ∀ k : Fin 16, s.sp.toNat = k.val + 1 → t.pc.toNat = (s.stack[k].toNat + 2) % 65536
    | .seImm _ _ | .sneImm _ _ | .seReg _ _ | .sneReg _ _ | .skp _ | .sknp _ => t.pc = s.pc + 2 ∨ t.pc = s.pc + 4
    | .ldVxK _ => if s.inputs.anyKey = none then t.pc = s.pc else t.pc = s.pc + 2
    | _ => t.pc = s.pc + 2

/-- A register changes only if it is one of those the instruction may write: its `V[x]`, `V[0]` to `V[x]` for the bulk load,
and `VF` for those that set the flag (R10, which the spec derives, R11; the flag of `ADD I` is D15's, log 22). -/
def Obligations.OnlyNamedRegistersChange : Prop :=
  ∀ (i : Instr) (s t : State) (r : Reg), exec i s = .next t → t.v[r] ≠ s.v[r] → MayWriteRegister s.params i r

/-- The display buffer and `RENDER` are mutated only by the draw instruction and by clear-screen (R20, R21). -/
def Obligations.OnlyDisplayInstructionsTouchTheDisplay : Prop :=
  ∀ (i : Instr) (s t : State), exec i s = .next t → t.fb ≠ s.fb ∨ t.render ≠ s.render →
    i = .cls ∨ ∃ x y n, i = .drw x y n

/-- Only `LD B,Vx` and `LD [I],Vx` write memory, and only bytes from `I` on, three or `x + 1` of them (R47; that an address outside memory is never stored to is D3's, log 15). -/
def Obligations.OnlyStoresWriteMemory : Prop :=
  ∀ (i : Instr) (s t : State) (a : Nat), exec i s = .next t → t.mem.read a ≠ s.mem.read a →
    s.i.toNat ≤ a ∧ a < 4096 ∧
    ((∃ x, i = .ldB x ∧ a ≤ s.i.toNat + 2) ∨ ∃ x, i = .stRegs x ∧ a ≤ s.i.toNat + x.val)

/-- `SP` and the call stack are touched by `CALL` and `RET` alone, the stack's entries by `CALL` alone (R16, R17). -/
def Obligations.OnlyCallAndReturnTouchTheStack : Prop :=
  ∀ (i : Instr) (s t : State), exec i s = .next t →
    (t.sp ≠ s.sp → i = .ret ∨ ∃ nnn, i = .call nnn) ∧ (t.stack ≠ s.stack → ∃ nnn, i = .call nnn)

/-- `I` is written by `LD I`, `LD F`, `ADD I`, and by the bulk transfers under `Q_LS_INC_I`, alone (R12). -/
def Obligations.OnlyIndexInstructionsWriteTheIndex : Prop :=
  ∀ (i : Instr) (s t : State), exec i s = .next t → t.i ≠ s.i →
    (∃ nnn, i = .ldI nnn) ∨ (∃ x, i = .ldF x) ∨ (∃ x, i = .addI x) ∨
    (s.params.qLsIncI = true ∧ ∃ x, i = .stRegs x ∨ i = .ldRegs x)

/-- No instruction counts a timer down: `DT` is written by `LD DT,Vx` and `ST` by `LD ST,Vx` alone, and no instruction
writes a parameter, an input or the host's schedule (R18, R23, R33, R170). -/
def Obligations.OnlyTimerSetsWriteTheTimers : Prop :=
  ∀ (i : Instr) (s t : State), exec i s = .next t →
    (t.dt ≠ s.dt → ∃ x, i = .ldDtVx x) ∧ (t.st ≠ s.st → ∃ x, i = .ldStVx x) ∧
    t.params = s.params ∧ t.inputs = s.inputs ∧ t.schedule = s.schedule ∧ t.drawn = s.drawn

/-- A step that executes none of `SKP`, `SKNP`, `LD Vx,K`, `RND` does not depend on the inputs (R31, its last sentence). -/
def Obligations.OtherInstructionsIgnoreTheInputs : Prop :=
  ∀ (i : Instr) (s t : State) (p : StepInputs), ReadsInput i = false → exec i s = .next t →
    exec i { s with inputs := p } = .next { t with inputs := p }

/-! ## Memory -/

/-- The canonical form: two memories in it that read the same everywhere are the same data (the model's own, log 6). -/
def Obligations.CanonicalMemoriesAreEqualData : Prop :=
  ∀ m m' : Memory, m.wf → m'.wf → (∀ a, m.read a = m'.read a) → m = m'

/-! ## Invariants -/

/-- The invariant holds right after reset (the values of R30 but `PC`'s are D7's, log 5, log 6). -/
def Obligations.InvariantAtReset : Prop := State.reset.Inv

/-- Every step keeps the invariant, from every state that has it: memory canonical and inside 4096 bytes, `SP` 0 to 16,
stacked return addresses at most `0x0FFE`, `PC` at most `0x10FE`, a halted `PC` at its record's address (R15, which the
spec derives, R16, R40, R103, R211; the canonical form is the model's, log 6; D4, D24, log 8, log 26). -/
def Obligations.EveryStepKeepsTheInvariant : Prop :=
  ∀ s t : State, s.Inv → step s = .next t → t.Inv

/-- The keypad inputs agree at reset, and stay so with every step while the host's schedule supplies inputs that agree; the
free inputs of the model agree of themselves (R31, R222; D11, log 19). -/
def Obligations.KeypadInputsStayConsistent : Prop :=
  State.reset.inputsConsistent ∧
  ∀ s t : State, s.inputsConsistent → step s = .next t → t.inputsConsistent
end

