-- ==== Sys2Proof/Laws/Decode.lean ====
section
/-! SUPPORT. The fields of the words the encoder forms (R61, R62). -/

namespace Sys2Proof

/-- The four nibbles of a word of four nibbles. -/
theorem field_nibbles {f x y n : Nat} (hf : f < 16) (hx : x < 16) (hy : y < 16) (hn : n < 16) :
    field (nibbles f x y n) 15 12 = f ∧ field (nibbles f x y n) 11 8 = x ∧ field (nibbles f x y n) 7 4 = y ∧
      field (nibbles f x y n) 3 0 = n := by
  simp only [field, nibbles, BitVec.toNat_ofNat]; norm_num; omega

/-- The fields of a word of formats XNN and X. -/
theorem field_wordX {f low : Nat} {x : Reg} (hf : f < 16) (hl : low < 256) :
    field (wordX f x low) 15 12 = f ∧ field (wordX f x low) 11 8 = x.val ∧ field (wordX f x low) 7 0 = low := by
  have := x.isLt
  simp only [field, wordX, BitVec.toNat_ofNat]; norm_num; omega

/-- The fields of a word of format NNN. -/
theorem field_wordNnn {f : Nat} {a : Word} (hf : f < 16) (ha : a.toNat < 4096) :
    field (wordNnn f a) 15 12 = f ∧ field (wordNnn f a) 11 0 = a.toNat := by
  simp only [field, wordNnn, BitVec.toNat_ofNat]; norm_num; omega

/-- A word is its high byte, then its low byte (R55). -/
theorem toNat_joinBytes (h l : Byte) : (joinBytes h l).toNat = h.toNat * 256 + l.toNat := by
  simp only [joinBytes, BitVec.toNat_ofNat]; omega

/-- Splitting a word into its bytes and joining them gives the word back (R55). -/
theorem joinBytes_highByte_lowByte (w : Word) : joinBytes (highByte w) (lowByte w) = w := by
  apply BitVec.eq_of_toNat_eq
  rw [toNat_joinBytes]
  simp only [highByte, lowByte, BitVec.toNat_ofNat]; omega

/-- A mask of low bits is a remainder. -/
theorem toNat_and_low (w : Word) (k : Nat) (m : Word) (hm : m.toNat = 2 ^ k - 1) :
    (w &&& m).toNat = w.toNat % 2 ^ k := by
  rw [BitVec.toNat_and, hm, Nat.and_two_pow_sub_one_eq_mod]

/-- The mask of the top nibble, as shifts. -/
theorem and_family (w : Word) : w &&& (0xF000 : Word) = (w >>> 12) <<< 12 := by
  apply BitVec.eq_of_getLsbD_eq; intro i hi
  interval_cases i <;> simp

/-- The mask of the top nibble and of `k` low bits: what the masks of R64 keep of a word. -/
theorem toNat_and_family_low (w : Word) (k : Nat) (hk : k < 12) (m : Word) (hm : m.toNat = 2 ^ k - 1) :
    (w &&& ((0xF000 : Word) ||| m)).toNat = w.toNat / 4096 * 4096 + w.toNat % 2 ^ k := by
  have hp : 2 ^ k ≤ 2 ^ 12 := Nat.pow_le_pow_right (by decide) hk.le
  have hl := Nat.mod_lt w.toNat (Nat.two_pow_pos k)
  have hs : ((w >>> 12) <<< 12).toNat = (w.toNat / 4096) <<< 12 := by
    simp [Nat.shiftLeft_eq, Nat.shiftRight_eq_div_pow]; omega
  rw [BitVec.and_or_distrib_left, and_family, BitVec.toNat_or, toNat_and_low w k m hm, hs,
    ← Nat.shiftLeft_add_eq_or_of_lt (by omega), Nat.shiftLeft_eq]

/-- What mask `0xF000` of R64 keeps. -/
theorem toNat_and_F000 (w : Word) : (w &&& (0xF000 : Word)).toNat = w.toNat / 4096 * 4096 := by
  have := toNat_and_family_low w 0 (by decide) 0 rfl
  simpa [Nat.mod_one] using this

/-- What mask `0xF00F` of R64 keeps. -/
theorem toNat_and_F00F (w : Word) : (w &&& (0xF00F : Word)).toNat = w.toNat / 4096 * 4096 + w.toNat % 16 :=
  toNat_and_family_low w 4 (by decide) 0x000F rfl

/-- What mask `0xF0FF` of R64 keeps. -/
theorem toNat_and_F0FF (w : Word) : (w &&& (0xF0FF : Word)).toNat = w.toNat / 4096 * 4096 + w.toNat % 256 :=
  toNat_and_family_low w 8 (by decide) 0x00FF rfl

end Sys2Proof
end

