-- ==== Sys2Proof/Laws/Memory.lean ====
section
/-! SUPPORT. The laws of memory: read after write, and that every operation keeps the canonical form. -/

namespace Sys2Proof.Machine

/-- An insertion is read at its own address only. -/
theorem read_insert (m : Memory) (a a' : Nat) (b : Byte) :
    (Memory.insert m a b).read a' = if a' = a then b else m.read a' := by
  induction m with
  | nil => simp only [Memory.insert, Memory.read, eq_comm (a := a)]
  | cons c rest ih =>
    obtain ⟨k, c⟩ := c
    simp only [Memory.insert]
    split
    · simp only [Memory.read, eq_comm (a := a)]
    · split
      · subst_vars; simp only [Memory.read, eq_comm (a := a')]; split <;> rfl
      · simp only [Memory.read, ih]; split <;> split <;> simp_all

/-- An erased address reads as its reset contents. -/
theorem read_erase (m : Memory) (a a' : Nat) :
    (Memory.erase m a).read a' = if a' = a then Memory.unlisted a else m.read a' := by
  induction m with
  | nil => by_cases h : a' = a <;> simp [Memory.erase, Memory.read, h]
  | cons c rest ih =>
    obtain ⟨k, c⟩ := c
    rw [Memory.erase] at ih
    by_cases hk : k = a
    · subst hk; simp only [Memory.erase, List.filter_cons, bne_self_eq_false, Bool.false_eq_true, if_false, ih,
        Memory.read]
      split <;> simp_all [eq_comm]
    · simp only [Memory.erase, List.filter_cons, bne_iff_ne, ne_eq, hk, not_false_eq_true, if_true, Memory.read, ih]
      split <;> split <;> simp_all

/-- A read gives what was last written to its address, and a write leaves every other address alone (R43, R48). -/
theorem read_write (m : Memory) (a a' : Nat) (b : Byte) :
    (Memory.write m a b).read a' = if a' = a ∧ a < 4096 then b else m.read a' := by
  unfold Memory.write
  split
  · split
    · subst_vars; simp [read_erase, *]
    · simp [read_insert, *]
  · simp [*]

/-- A read outside the written bytes gives what it gave before (R43). -/
theorem read_writeBytes_of_outside (m : Memory) (a a' : Nat) (bytes : List Byte)
    (h : a' < a ∨ a + bytes.length ≤ a') : (Memory.writeBytes m a bytes).read a' = m.read a' := by
  induction bytes generalizing m a with
  | nil => rfl
  | cons b rest ih =>
    simp only [List.length_cons] at h
    rw [Memory.writeBytes, ih _ _ (by omega), read_write, if_neg (by omega)]

/-- A read of the `k`-th written byte gives it (R43, R47). -/
theorem read_writeBytes_of_inside (m : Memory) (a k : Nat) (bytes : List Byte) (hk : k < bytes.length)
    (h : a + bytes.length ≤ 4096) : (Memory.writeBytes m a bytes).read (a + k) = bytes[k] := by
  induction bytes generalizing m a k with
  | nil => simp at hk
  | cons b rest ih =>
    simp only [List.length_cons] at h hk
    cases k with
    | zero =>
      rw [Memory.writeBytes, read_writeBytes_of_outside _ _ _ _ (by omega), read_write]
      simp only [Nat.add_zero, List.getElem_cons_zero, true_and]
      rw [if_pos (by omega)]
    | succ k =>
      rw [Memory.writeBytes, show a + (k + 1) = a + 1 + k by omega, ih _ _ _ (by omega) (by omega)]
      simp

theorem wf_nil : Memory.wf [] := by simp [Memory.wf]

theorem mem_insert {m : Memory} {a : Nat} {b : Byte} {c : Host.Cell} (h : c ∈ Memory.insert m a b) :
    c = (a, b) ∨ c ∈ m := by
  induction m with
  | nil => simpa [Memory.insert] using h
  | cons d rest ih =>
    obtain ⟨k, d⟩ := d
    simp only [Memory.insert] at h
    split at h
    · simpa using h
    · split at h
      · simp only [List.mem_cons] at h ⊢; tauto
      · simp only [List.mem_cons] at h ⊢; rcases h with h | h
        · tauto
        · have := ih h; tauto

theorem wf_insert {m : Memory} {a : Nat} {b : Byte} (ha : a < 4096) (hb : b ≠ Memory.unlisted a)
    (h : m.wf) : Memory.wf (Memory.insert m a b) := by
  obtain ⟨hp, hc⟩ := h
  refine ⟨?_, fun c hc' => ?_⟩
  · clear hc
    induction m with
    | nil => simp [Memory.insert]
    | cons d rest ih =>
      obtain ⟨k, d⟩ := d
      rw [List.pairwise_cons] at hp
      simp only [Memory.insert]
      split
      · refine List.pairwise_cons.2 ⟨fun q hq => ?_, List.pairwise_cons.2 hp⟩
        rcases List.mem_cons.1 hq with rfl | hq
        · assumption
        · exact Nat.lt_trans ‹a < k› (hp.1 q hq)
      · split
        · subst_vars; exact List.pairwise_cons.2 hp
        · refine List.pairwise_cons.2 ⟨fun q hq => ?_, ih hp.2⟩
          rcases mem_insert hq with rfl | hq
          · simp only; omega
          · exact hp.1 q hq
  · rcases mem_insert hc' with rfl | h
    · exact ⟨ha, hb⟩
    · exact hc c h

theorem wf_erase {m : Memory} (a : Nat) (h : m.wf) : Memory.wf (Memory.erase m a) :=
  ⟨h.1.filter _, fun c hc => h.2 c (List.mem_of_mem_filter hc)⟩

/-- A write keeps the canonical form. -/
theorem wf_write {m : Memory} (a : Nat) (b : Byte) (h : m.wf) : Memory.wf (Memory.write m a b) := by
  unfold Memory.write
  split
  · split
    · exact wf_erase _ h
    · exact wf_insert ‹_› ‹_› h
  · exact h

/-- A sequence of writes keeps the canonical form. -/
theorem wf_writeBytes {m : Memory} (a : Nat) (bytes : List Byte) (h : m.wf) :
    Memory.wf (Memory.writeBytes m a bytes) := by
  induction bytes generalizing m a with
  | nil => exact h
  | cons b rest ih => exact ih _ (wf_write _ _ h)

/-- Memory after a boot is in canonical form (R242, R243). -/
theorem wf_bootMemory (font program : List Byte) : Memory.wf (bootMemory font program) :=
  wf_writeBytes _ _ (wf_writeBytes _ _ wf_nil)

/-- The `k`-th of `n` bytes read. -/
theorem getElem_readBytes (m : Memory) (a n k : Nat) (h : k < (m.readBytes a n).length) :
    (m.readBytes a n)[k] = m.read (a + k) := by
  simp [Memory.readBytes]

@[simp] theorem length_readBytes (m : Memory) (a n : Nat) : (m.readBytes a n).length = n := by
  simp [Memory.readBytes]

end Sys2Proof.Machine
end

