-- ==== Sys2Proof/Laws/State.lean ====
section
/-! SUPPORT. One lemma per field per update of State, and the derived endings in terms of the basic ones. -/

namespace Sys2Proof.Machine

@[simp] theorem setV_v (s : State) (x : Reg) (b : Byte) : (s.setV x b).v = s.v.set x b := rfl
@[simp] theorem setV_i (s : State) (x : Reg) (b : Byte) : (s.setV x b).i = s.i := rfl
@[simp] theorem setV_pc (s : State) (x : Reg) (b : Byte) : (s.setV x b).pc = s.pc := rfl
@[simp] theorem setV_sp (s : State) (x : Reg) (b : Byte) : (s.setV x b).sp = s.sp := rfl
@[simp] theorem setV_stack (s : State) (x : Reg) (b : Byte) : (s.setV x b).stack = s.stack := rfl
@[simp] theorem setV_dt (s : State) (x : Reg) (b : Byte) : (s.setV x b).dt = s.dt := rfl
@[simp] theorem setV_st (s : State) (x : Reg) (b : Byte) : (s.setV x b).st = s.st := rfl
@[simp] theorem setV_mem (s : State) (x : Reg) (b : Byte) : (s.setV x b).mem = s.mem := rfl
@[simp] theorem setV_fb (s : State) (x : Reg) (b : Byte) : (s.setV x b).fb = s.fb := rfl
@[simp] theorem setV_render (s : State) (x : Reg) (b : Byte) : (s.setV x b).render = s.render := rfl
@[simp] theorem setV_fault (s : State) (x : Reg) (b : Byte) : (s.setV x b).fault = s.fault := rfl
@[simp] theorem setV_params (s : State) (x : Reg) (b : Byte) : (s.setV x b).params = s.params := rfl
@[simp] theorem setV_inputs (s : State) (x : Reg) (b : Byte) : (s.setV x b).inputs = s.inputs := rfl
@[simp] theorem setV_result (s : State) (x : Reg) (b : Byte) : (s.setV x b).result = s.result := rfl
@[simp] theorem setV_schedule (s : State) (x : Reg) (b : Byte) : (s.setV x b).schedule = s.schedule := rfl
@[simp] theorem setV_drawn (s : State) (x : Reg) (b : Byte) : (s.setV x b).drawn = s.drawn := rfl

@[simp] theorem finishAt_v (s : State) (a : Word) : (s.finishAt a).v = s.v := rfl
@[simp] theorem finishAt_i (s : State) (a : Word) : (s.finishAt a).i = s.i := rfl
@[simp] theorem finishAt_pc (s : State) (a : Word) : (s.finishAt a).pc = a := rfl
@[simp] theorem finishAt_sp (s : State) (a : Word) : (s.finishAt a).sp = s.sp := rfl
@[simp] theorem finishAt_stack (s : State) (a : Word) : (s.finishAt a).stack = s.stack := rfl
@[simp] theorem finishAt_dt (s : State) (a : Word) : (s.finishAt a).dt = s.dt := rfl
@[simp] theorem finishAt_st (s : State) (a : Word) : (s.finishAt a).st = s.st := rfl
@[simp] theorem finishAt_mem (s : State) (a : Word) : (s.finishAt a).mem = s.mem := rfl
@[simp] theorem finishAt_fb (s : State) (a : Word) : (s.finishAt a).fb = s.fb := rfl
@[simp] theorem finishAt_render (s : State) (a : Word) : (s.finishAt a).render = s.render := rfl
@[simp] theorem finishAt_fault (s : State) (a : Word) : (s.finishAt a).fault = s.fault := rfl
@[simp] theorem finishAt_params (s : State) (a : Word) : (s.finishAt a).params = s.params := rfl
@[simp] theorem finishAt_inputs (s : State) (a : Word) : (s.finishAt a).inputs = s.inputs := rfl
@[simp] theorem finishAt_result (s : State) (a : Word) : (s.finishAt a).result = some (.progress none) := rfl
@[simp] theorem finishAt_schedule (s : State) (a : Word) : (s.finishAt a).schedule = s.schedule := rfl
@[simp] theorem finishAt_drawn (s : State) (a : Word) : (s.finishAt a).drawn = s.drawn := rfl

@[simp] theorem raise_v (s : State) (c : Cause) (o : Option Word) (a : Word) : (s.raise c o a).v = s.v := rfl
@[simp] theorem raise_i (s : State) (c : Cause) (o : Option Word) (a : Word) : (s.raise c o a).i = s.i := rfl
@[simp] theorem raise_pc (s : State) (c : Cause) (o : Option Word) (a : Word) : (s.raise c o a).pc = s.pc := rfl
@[simp] theorem raise_sp (s : State) (c : Cause) (o : Option Word) (a : Word) : (s.raise c o a).sp = s.sp := rfl
@[simp] theorem raise_stack (s : State) (c : Cause) (o : Option Word) (a : Word) : (s.raise c o a).stack = s.stack := rfl
@[simp] theorem raise_dt (s : State) (c : Cause) (o : Option Word) (a : Word) : (s.raise c o a).dt = s.dt := rfl
@[simp] theorem raise_st (s : State) (c : Cause) (o : Option Word) (a : Word) : (s.raise c o a).st = s.st := rfl
@[simp] theorem raise_mem (s : State) (c : Cause) (o : Option Word) (a : Word) : (s.raise c o a).mem = s.mem := rfl
@[simp] theorem raise_fb (s : State) (c : Cause) (o : Option Word) (a : Word) : (s.raise c o a).fb = s.fb := rfl
@[simp] theorem raise_render (s : State) (c : Cause) (o : Option Word) (a : Word) : (s.raise c o a).render = s.render := rfl
@[simp] theorem raise_fault (s : State) (c : Cause) (o : Option Word) (a : Word) : (s.raise c o a).fault = some ⟨c, o, s.pc, a⟩ := rfl
@[simp] theorem raise_params (s : State) (c : Cause) (o : Option Word) (a : Word) : (s.raise c o a).params = s.params := rfl
@[simp] theorem raise_inputs (s : State) (c : Cause) (o : Option Word) (a : Word) : (s.raise c o a).inputs = s.inputs := rfl
@[simp] theorem raise_result (s : State) (c : Cause) (o : Option Word) (a : Word) : (s.raise c o a).result = some (.fault ⟨c, o, s.pc, a⟩) := rfl
@[simp] theorem raise_schedule (s : State) (c : Cause) (o : Option Word) (a : Word) : (s.raise c o a).schedule = s.schedule := rfl
@[simp] theorem raise_drawn (s : State) (c : Cause) (o : Option Word) (a : Word) : (s.raise c o a).drawn = s.drawn := rfl

@[simp] theorem pushPc_v (s : State) : (s.pushPc).v = s.v := rfl
@[simp] theorem pushPc_i (s : State) : (s.pushPc).i = s.i := rfl
@[simp] theorem pushPc_pc (s : State) : (s.pushPc).pc = s.pc := rfl
@[simp] theorem pushPc_sp (s : State) : (s.pushPc).sp = s.sp + 1 := rfl
@[simp] theorem pushPc_stack (s : State) : (s.pushPc).stack = s.stack.setIfInBounds s.sp.toNat s.pc := rfl
@[simp] theorem pushPc_dt (s : State) : (s.pushPc).dt = s.dt := rfl
@[simp] theorem pushPc_st (s : State) : (s.pushPc).st = s.st := rfl
@[simp] theorem pushPc_mem (s : State) : (s.pushPc).mem = s.mem := rfl
@[simp] theorem pushPc_fb (s : State) : (s.pushPc).fb = s.fb := rfl
@[simp] theorem pushPc_render (s : State) : (s.pushPc).render = s.render := rfl
@[simp] theorem pushPc_fault (s : State) : (s.pushPc).fault = s.fault := rfl
@[simp] theorem pushPc_params (s : State) : (s.pushPc).params = s.params := rfl
@[simp] theorem pushPc_inputs (s : State) : (s.pushPc).inputs = s.inputs := rfl
@[simp] theorem pushPc_result (s : State) : (s.pushPc).result = s.result := rfl
@[simp] theorem pushPc_schedule (s : State) : (s.pushPc).schedule = s.schedule := rfl
@[simp] theorem pushPc_drawn (s : State) : (s.pushPc).drawn = s.drawn := rfl

@[simp] theorem renderAck_v (s : State) : (s.renderAck).v = s.v := rfl
@[simp] theorem renderAck_i (s : State) : (s.renderAck).i = s.i := rfl
@[simp] theorem renderAck_pc (s : State) : (s.renderAck).pc = s.pc := rfl
@[simp] theorem renderAck_sp (s : State) : (s.renderAck).sp = s.sp := rfl
@[simp] theorem renderAck_stack (s : State) : (s.renderAck).stack = s.stack := rfl
@[simp] theorem renderAck_dt (s : State) : (s.renderAck).dt = s.dt := rfl
@[simp] theorem renderAck_st (s : State) : (s.renderAck).st = s.st := rfl
@[simp] theorem renderAck_mem (s : State) : (s.renderAck).mem = s.mem := rfl
@[simp] theorem renderAck_fb (s : State) : (s.renderAck).fb = s.fb := rfl
@[simp] theorem renderAck_render (s : State) : (s.renderAck).render = false := rfl
@[simp] theorem renderAck_fault (s : State) : (s.renderAck).fault = s.fault := rfl
@[simp] theorem renderAck_params (s : State) : (s.renderAck).params = s.params := rfl
@[simp] theorem renderAck_inputs (s : State) : (s.renderAck).inputs = s.inputs := rfl
@[simp] theorem renderAck_result (s : State) : (s.renderAck).result = s.result := rfl
@[simp] theorem renderAck_schedule (s : State) : (s.renderAck).schedule = s.schedule := rfl
@[simp] theorem renderAck_drawn (s : State) : (s.renderAck).drawn = s.drawn := rfl

@[simp] theorem present_v (s : State) (p : StepInputs) : (s.present p).v = s.v := rfl
@[simp] theorem present_i (s : State) (p : StepInputs) : (s.present p).i = s.i := rfl
@[simp] theorem present_pc (s : State) (p : StepInputs) : (s.present p).pc = s.pc := rfl
@[simp] theorem present_sp (s : State) (p : StepInputs) : (s.present p).sp = s.sp := rfl
@[simp] theorem present_stack (s : State) (p : StepInputs) : (s.present p).stack = s.stack := rfl
@[simp] theorem present_dt (s : State) (p : StepInputs) : (s.present p).dt = s.dt := rfl
@[simp] theorem present_st (s : State) (p : StepInputs) : (s.present p).st = s.st := rfl
@[simp] theorem present_mem (s : State) (p : StepInputs) : (s.present p).mem = s.mem := rfl
@[simp] theorem present_fb (s : State) (p : StepInputs) : (s.present p).fb = s.fb := rfl
@[simp] theorem present_render (s : State) (p : StepInputs) : (s.present p).render = s.render := rfl
@[simp] theorem present_fault (s : State) (p : StepInputs) : (s.present p).fault = s.fault := rfl
@[simp] theorem present_params (s : State) (p : StepInputs) : (s.present p).params = s.params := rfl
@[simp] theorem present_inputs (s : State) (p : StepInputs) : (s.present p).inputs = p := rfl
@[simp] theorem present_result (s : State) (p : StepInputs) : (s.present p).result = s.result := rfl
@[simp] theorem present_schedule (s : State) (p : StepInputs) : (s.present p).schedule = s.schedule := rfl
@[simp] theorem present_drawn (s : State) (p : StepInputs) : (s.present p).drawn = s.drawn := rfl

@[simp] theorem popEvent_v (s : State) : s.popEvent.v = s.v := by unfold State.popEvent; split <;> rfl
@[simp] theorem popEvent_i (s : State) : s.popEvent.i = s.i := by unfold State.popEvent; split <;> rfl
@[simp] theorem popEvent_pc (s : State) : s.popEvent.pc = s.pc := by unfold State.popEvent; split <;> rfl
@[simp] theorem popEvent_sp (s : State) : s.popEvent.sp = s.sp := by unfold State.popEvent; split <;> rfl
@[simp] theorem popEvent_stack (s : State) : s.popEvent.stack = s.stack := by unfold State.popEvent; split <;> rfl
@[simp] theorem popEvent_dt (s : State) : s.popEvent.dt = s.dt := by unfold State.popEvent; split <;> rfl
@[simp] theorem popEvent_st (s : State) : s.popEvent.st = s.st := by unfold State.popEvent; split <;> rfl
@[simp] theorem popEvent_mem (s : State) : s.popEvent.mem = s.mem := by unfold State.popEvent; split <;> rfl
@[simp] theorem popEvent_fb (s : State) : s.popEvent.fb = s.fb := by unfold State.popEvent; split <;> rfl
@[simp] theorem popEvent_render (s : State) : s.popEvent.render = s.render := by unfold State.popEvent; split <;> rfl
@[simp] theorem popEvent_fault (s : State) : s.popEvent.fault = s.fault := by unfold State.popEvent; split <;> rfl
@[simp] theorem popEvent_params (s : State) : s.popEvent.params = s.params := by unfold State.popEvent; split <;> rfl
@[simp] theorem popEvent_inputs (s : State) : s.popEvent.inputs = s.inputs := by unfold State.popEvent; split <;> rfl
@[simp] theorem popEvent_result (s : State) : s.popEvent.result = s.result := by unfold State.popEvent; split <;> rfl

/-- A scheduled event is the next one (log 1). -/
theorem nextEvent_of_cons {s : State} {e : Event} {rest : List Event} (h : s.schedule = e :: rest) : s.nextEvent = e := by
  rw [State.nextEvent, h]

/-- Taking a scheduled event off (log 1). -/
theorem popEvent_of_cons {s : State} {e : Event} {rest : List Event} (h : s.schedule = e :: rest) :
    s.popEvent = { s with schedule := rest } := by
  rw [State.popEvent, h]

/-- Beyond the schedule the next event is free (log 3). -/
theorem nextEvent_of_nil {s : State} (h : s.schedule = []) : s.nextEvent = freeEvent s.drawn := by
  rw [State.nextEvent, h]

/-- Taking a free event off (log 3). -/
theorem popEvent_of_nil {s : State} (h : s.schedule = []) : s.popEvent = { s with drawn := s.drawn + 1 } := by
  rw [State.popEvent, h]

/-- No event is left behind that was not scheduled (log 1). -/
theorem mem_popEvent_schedule {s : State} {e : Event} (h : e ∈ s.popEvent.schedule) : e ∈ s.schedule := by
  unfold State.popEvent at h
  split at h
  · rw [‹s.schedule = _›]; exact List.mem_cons_of_mem _ h
  · exact h

/-- `next` in terms of `finishAt` (R8). -/
@[simp] theorem finish_eq (s : State) : s.finish = s.finishAt (s.pc + 2) := rfl

/-- A skip in terms of `finishAt` (R14). -/
@[simp] theorem finishSkip_eq (s : State) (c : Bool) :
    s.finishSkip c = s.finishAt (if c then s.pc + 4 else s.pc + 2) := rfl

/-- The flag-writing end in terms of two register writes (R120). -/
@[simp] theorem setVThenFlag_eq (s : State) (x : Reg) (b f : Byte) :
    s.setVThenFlag x b f = (s.setV x b).setV regVF f := rfl

/-- A register reads what was last written to it (R10). -/
@[simp] theorem getV_setV_same (s : State) (x : Reg) (b : Byte) : (s.setV x b).getV x = b := by
  simp [State.getV]

/-- A write leaves the other registers alone (R10). -/
theorem getV_setV_ne (s : State) {x r : Reg} (b : Byte) (h : r ≠ x) : (s.setV x b).getV r = s.getV r := by
  have : x.val ≠ r.val := fun e => h (Fin.ext e.symm)
  simp [State.getV, this]

/-- After a register and then the flag, `VF` holds the flag, whichever the register (R120). -/
theorem getV_setVThenFlag_flag (s : State) (x : Reg) (b f : Byte) : (s.setVThenFlag x b f).getV regVF = f := by
  simp

/-- After a register and then the flag, the register holds its value unless it is `VF` (R120). -/
theorem getV_setVThenFlag_value (s : State) {x : Reg} (b f : Byte) (h : x ≠ regVF) :
    (s.setVThenFlag x b f).getV x = b := by
  rw [setVThenFlag_eq, getV_setV_ne _ _ h, getV_setV_same]

end Sys2Proof.Machine
end

