-- ==== Sys2Proof/Laws/Ops.lean ====
section
/-! SUPPORT. One lemma per shared operation that says everything it can do; provers cite these and do not unfold. -/

namespace Sys2Proof.Machine

/-- `boundsFault` reports nothing exactly when every one of the `count` addresses is inside memory (R54). -/
theorem boundsFault_eq_none {base : Word} {count : Nat} :
    boundsFault base count = none ↔ count = 0 ∨ base.toNat + count ≤ 4096 := by
  unfold boundsFault memSize; split <;> simp only [reduceCtorEq, false_iff, true_iff] <;> omega

/-- What `boundsFault` reports is the lowest of the addresses that is 4096 or more (R54). -/
theorem boundsFault_eq_some {base : Word} {count : Nat} {a : Word} :
    boundsFault base count = some a ↔
      1 ≤ count ∧ 4096 < base.toNat + count ∧ a.toNat = max base.toNat 0x1000 := by
  unfold boundsFault memSize
  split
  · rename_i h
    rw [Option.some.injEq, ← BitVec.toNat_inj]
    split
    · rw [show (0x1000 : Word).toNat = 0x1000 from rfl]; omega
    · omega
  · simp only [reduceCtorEq, false_iff]; omega

/-- Inside memory the effect happens (R54). -/
theorem withBounds_of_inside {i : Instr} {count : Nat} {s effect : State} (h : s.i.toNat + count ≤ 4096) :
    withBounds i count s effect = effect := by
  rw [withBounds, boundsFault_eq_none.2 (.inr h)]

/-- Without an access the effect happens (R162). -/
theorem withBounds_of_zero {i : Instr} {s effect : State} : withBounds i 0 s effect = effect := by
  rw [withBounds, boundsFault_eq_none.2 (.inl rfl)]

/-- With an address outside memory nothing happens but the raise (R54). -/
theorem withBounds_of_outside {i : Instr} {count : Nat} {s effect : State} (hc : 1 ≤ count)
    (h : 4096 < s.i.toNat + count) :
    ∃ a : Word, a.toNat = max s.i.toNat 0x1000 ∧
      withBounds i count s effect = s.raise .outOfBounds (some (encode i)) a := by
  cases hb : boundsFault s.i count with
  | none => have := boundsFault_eq_none.1 hb; omega
  | some a => exact ⟨a, (boundsFault_eq_some.1 hb).2.2, by rw [withBounds, hb]⟩

/-- A bounded instruction either has its effect or raises `OutOfBounds` (R54). -/
theorem withBounds_cases (i : Instr) (count : Nat) (s effect : State) :
    (withBounds i count s effect = effect ∧ (count = 0 ∨ s.i.toNat + count ≤ 4096)) ∨
      ∃ a, withBounds i count s effect = s.raise .outOfBounds (some (encode i)) a := by
  cases hb : boundsFault s.i count with
  | none => exact .inl ⟨by rw [withBounds, hb], boundsFault_eq_none.1 hb⟩
  | some a => exact .inr ⟨a, by rw [withBounds, hb]⟩

/-- Everything the front of a step event can come to (R44, R200, R202, R206, R213). -/
theorem frontEnd_cases (s : State) :
    (∃ r, s.fault = some r ∧ frontEnd s = .over (.next { s with result := some (.fault r) })) ∨
    (s.fault = none ∧ ∃ a, boundsFault s.pc 2 = some a ∧ frontEnd s = .over (.next (s.raise .outOfBounds none a))) ∨
    (s.fault = none ∧ boundsFault s.pc 2 = none ∧ decodeWord s.fetchedWord = none ∧
      frontEnd s = .over (.next (s.unknownOpcode s.fetchedWord))) ∨
    (s.fault = none ∧ boundsFault s.pc 2 = none ∧
      ∃ i, decodeWord s.fetchedWord = some i ∧ frontEnd s = .run i s) := by
  unfold frontEnd
  cases s.fault with
  | some r => exact .inl ⟨r, rfl, rfl⟩
  | none =>
    refine .inr ?_
    cases boundsFault s.pc 2 with
    | some a => exact .inl ⟨rfl, a, rfl, rfl⟩
    | none =>
      refine .inr ?_
      cases hd : decodeWord s.fetchedWord with
      | none => exact .inl ⟨rfl, rfl, rfl, by simp⟩
      | some i => exact .inr ⟨rfl, rfl, i, rfl, by simp⟩

/-- Everything an unknown opcode can do (R202, R206). -/
theorem unknownOpcode_cases (s : State) (w : Word) :
    (s.params.skipUnknown = true ∧
      s.unknownOpcode w = { s with pc := s.pc + 2, result := some (.progress (some (w, s.pc))) }) ∨
    (s.params.skipUnknown = false ∧ s.unknownOpcode w = s.raise .unknownOpcode (some w) s.pc) := by
  unfold State.unknownOpcode; cases s.params.skipUnknown <;> simp

/-- Everything a turn can come to: one of the four events of R247. -/
theorem takeTurn_cases (s : State) :
    (∃ p, s.nextEvent = .step p ∧ takeTurn s = frontEnd (s.popEvent.present p)) ∨
    (s.nextEvent = .tick ∧ takeTurn s = .over (.next s.popEvent.tick)) ∨
    (s.nextEvent = .renderAck ∧ takeTurn s = .over (.next s.popEvent.renderAck)) ∨
    (∃ boot, s.nextEvent = .reset boot ∧ takeTurn s = .over (s.popEvent.resetEvent boot)) := by
  unfold takeTurn
  cases s.nextEvent with
  | step p => exact .inl ⟨p, rfl, rfl⟩
  | tick => exact .inr (.inl ⟨rfl, rfl⟩)
  | renderAck => exact .inr (.inr (.inl ⟨rfl, rfl⟩))
  | reset boot => exact .inr (.inr (.inr ⟨boot, rfl, rfl⟩))

/-- Everything a free event can be (R248; log 3). -/
theorem freeEvent_cases (n : Nat) :
    freeEvent n = .step (freeInputs n) ∨ freeEvent n = .tick ∨ freeEvent n = .renderAck ∨
      freeEvent n = .reset (freeBoot n) := by
  unfold freeEvent; cases Config.freeEventKind n <;> simp

/-- Everything a reset event can do (R208, R240). -/
theorem resetEvent_cases (s : State) (boot : Boot) :
    (boot.program.length ≤ progMax ∧
      s.resetEvent boot = .next { State.fresh boot.params (bootMemory boot.font.toList boot.program) with
        schedule := s.schedule, drawn := s.drawn }) ∨
    (progMax < boot.program.length ∧ s.resetEvent boot = .fault .sizeExceeded) := by
  unfold State.resetEvent
  by_cases h : boot.program.length > progMax
  · exact .inr ⟨h, if_pos h⟩
  · exact .inl ⟨Nat.le_of_not_lt h, if_neg h⟩

/-- A running machine's tick: both timers count down (R220). -/
theorem tick_of_running {s : State} (h : s.fault = none) :
    s.tick = { s with dt := countDown s.dt, st := countDown s.st } := by
  rw [State.tick, h]

/-- A halted machine ignores a tick (R213). -/
theorem tick_of_halted {s : State} {r : FaultRecord} (h : s.fault = some r) : s.tick = s := by
  rw [State.tick, h]

/-- A timer counts down by one, with a floor at zero (R18). -/
theorem toNat_countDown (t : Byte) : (countDown t).toNat = t.toNat - 1 := by
  unfold countDown
  split
  · rw [BitVec.toNat_sub]; simp; omega
  · omega

/-- `chooseKey` finds a key exactly when one is down (R222). -/
theorem chooseKey_eq_none {keys : BitVec 16} {preferred : Key} : chooseKey keys preferred = none ↔ keys = 0 := by
  unfold chooseKey
  split
  · rename_i h
    simp only [reduceCtorEq, false_iff]
    rintro rfl
    simp at h
  · simp only [List.find?_eq_none, List.mem_finRange, true_implies, Bool.not_eq_true]
    constructor
    · intro h
      refine BitVec.eq_of_getLsbD_eq fun k hk => ?_
      simpa using h ⟨k, hk⟩
    · rintro rfl; simp

/-- What `chooseKey` finds is down (R222). -/
theorem chooseKey_down {keys : BitVec 16} {preferred k : Key} (h : chooseKey keys preferred = some k) :
    keys.getLsbD k.val = true := by
  unfold chooseKey at h
  split at h
  · cases h; assumption
  · simpa using List.find?_some h

/-- An entry that exists reads as what the stack holds (R17). -/
theorem stackEntry_of_lt (s : State) {k : Nat} (h : k < 16) : s.stackEntry k = s.stack[k] := by
  simp [State.stackEntry, Vector.getD, h]

/-- After a push the entry at the old `SP` is the pushed `PC`, the others are as before (R102). -/
theorem getElem_pushPc_stack (s : State) (k : Fin 16) :
    s.pushPc.stack[k] = if k.val = s.sp.toNat then s.pc else s.stack[k] := by
  simp [State.pushPc, Vector.getElem_setIfInBounds, eq_comm]

/-- The registers stored by a bulk store (R145). -/
@[simp] theorem length_regsUpTo (x : Reg) (s : State) : (regsUpTo x s).length = x.val + 1 := by
  simp [regsUpTo]

/-- The `k`-th register stored by a bulk store (R145). -/
theorem getElem_regsUpTo (x : Reg) (s : State) (k : Nat) (h : k < (regsUpTo x s).length) :
    (regsUpTo x s)[k] = s.v[k]'(by simp at h; omega) := by
  simp [regsUpTo]

/-- The registers after a bulk load (R146). -/
theorem getElem_regsLoaded (x : Reg) (s : State) (k : Reg) :
    (regsLoaded x s)[k] = if k.val ≤ x.val then s.mem.read (s.i.toNat + k.val) else s.v[k] := by
  simp [regsLoaded]

/-- The digits of a BCD store are three bytes (R144). -/
@[simp] theorem length_bcdDigits (b : Byte) : (bcdDigits b).length = 3 := rfl

/-- `zext_16` keeps the value (R8). -/
@[simp] theorem toNat_zext16 (b : Byte) : (zext16 b).toNat = b.toNat := by
  simp [zext16]; omega

/-- A key query's number, when the byte is one (R171). -/
theorem keyNumber_of_lt {b : Byte} (h : b.toNat < 16) : keyNumber b = some ⟨b.toNat, h⟩ := dif_pos h

/-- A byte above 15 is no key number (R171). -/
theorem keyNumber_of_ge {b : Byte} (h : 16 ≤ b.toNat) : keyNumber b = none := dif_neg (by omega)

end Sys2Proof.Machine
end

