-- ==== Sys2Proof/Laws/Exec.lean ====
section
/-! SUPPORT. Once for all instructions: everything `exec` can answer, so that no proof over instructions unfolds it. -/

namespace Sys2Proof.Machine

/-- The instruction completed: the state it then leaves, by the shared operations. The values written that a frame does
not need stand as some byte or some condition; the meanings give them. -/
def Completes (s t : State) : Instr → Prop
  | .cls => t = { s with fb := Frame.clear, render := true }.finish
  | .ret => s.sp ≠ 0 ∧ t = { s with sp := s.sp - 1 }.finishAt (s.stackEntry (s.sp - 1).toNat + 2)
  | .jp nnn => t = s.finishAt nnn
  | .call nnn => s.sp ≠ 16 ∧ t = s.pushPc.finishAt nnn
  | .jpV0 nnn => t = s.finishAt (nnn + zext16 (jumpOffset nnn s))
  | .seImm _ _ | .sneImm _ _ | .seReg _ _ | .sneReg _ _ | .skp _ | .sknp _ => ∃ b, t = s.finishSkip b
  | .ldImm x _ | .addImm x _ | .ldReg x _ | .orReg x _ | .andReg x _ | .xorReg x _ | .rnd x _ | .ldVxDt x =>
    ∃ b, t = (s.setV x b).finish
  | .addReg x _ | .subReg x _ | .subnReg x _ | .shr x _ | .shl x _ => ∃ b f, t = (s.setVThenFlag x b f).finish
  | .ldI nnn => t = { s with i := nnn }.finish
  | .addI x => ∃ f, t = (if s.params.qAddiVf then { s with i := s.i + zext16 (s.getV x) }.setV regVF f
      else { s with i := s.i + zext16 (s.getV x) }).finish
  | .ldF x => t = { s with i := zext16 (s.getV x) * 5 }.finish
  | .ldB x => s.i.toNat + 3 ≤ 4096 ∧
      t = { s with mem := s.mem.writeBytes s.i.toNat (bcdDigits (s.getV x)) }.finish
  | .stRegs x => s.i.toNat + (x.val + 1) ≤ 4096 ∧
      t = { s with mem := s.mem.writeBytes s.i.toNat (regsUpTo x s), i := indexAfterBulk x s }.finish
  | .ldRegs x => s.i.toNat + (x.val + 1) ≤ 4096 ∧
      t = { s with v := regsLoaded x s, i := indexAfterBulk x s }.finish
  | .drw x y n => (n = 0 ∨ s.i.toNat + n ≤ 4096) ∧
      t = ({ s with fb := (drawSprite (s.getV x) (s.getV y) (spriteRows n s) s.fb).1, render := true }.setV regVF
        (collisionFlag (drawSprite (s.getV x) (s.getV y) (spriteRows n s) s.fb).2)).finish
  | .ldVxK x => (s.inputs.anyKey = none ∧ t = { s with result := some .awaitingInput }) ∨
      ∃ k, s.inputs.anyKey = some k ∧ t = (s.setV x (keyByte k)).finish
  | .ldDtVx x => t = { s with dt := s.getV x }.finish
  | .ldStVx x => t = { s with st := s.getV x }.finish

/-- The fatal condition an instruction can raise (R209). -/
def CanRaise : Instr → Cause → Prop
  | .call _, c => c = .stackOverflow
  | .ret, c => c = .stackUnderflow
  | .ldB _, c | .stRegs _, c | .ldRegs _, c | .drw _ _ _, c => c = .outOfBounds
  | .skp _, c | .sknp _, c => c = .keyIndexOutOfRange
  | .cls, _ | .jp _, _ | .jpV0 _, _ | .ldI _, _ => False
  | .seImm _ _, _ | .sneImm _ _, _ | .seReg _ _, _ | .sneReg _ _, _ => False
  | .ldImm _ _, _ | .addImm _ _, _ | .ldReg _ _, _ | .orReg _ _, _ | .andReg _ _, _ | .xorReg _ _, _ => False
  | .addReg _ _, _ | .subReg _ _, _ | .subnReg _ _, _ | .shr _ _, _ | .shl _ _, _ | .rnd _ _, _ => False
  | .ldVxDt _, _ | .ldVxK _, _ | .ldDtVx _, _ | .ldStVx _, _ | .addI _, _ | .ldF _, _ => False

/-- What a bounded instruction answers (R54). -/
theorem bounded_cases (i : Instr) (count : Nat) (s effect : State) :
    ∃ t, Host.Outcome.next (withBounds i count s effect) = (.next t : Answer) ∧
      ((t = effect ∧ (count = 0 ∨ s.i.toNat + count ≤ 4096)) ∨
        ∃ a, t = s.raise .outOfBounds (some (encode i)) a) :=
  ⟨_, rfl, withBounds_cases i count s effect⟩

/-- Everything an instruction can answer: it completes, or it raises a fatal condition of its own (R200, R209). -/
theorem exec_cases (i : Instr) (s : State) :
    ∃ t, exec i s = .next t ∧
      (Completes s t i ∨ ∃ c a, CanRaise i c ∧ t = s.raise c (some (encode i)) a) := by
  cases i with
  | call nnn =>
    by_cases h : s.sp = 16
    · exact ⟨_, if_pos h, .inr ⟨_, _, rfl, rfl⟩⟩
    · exact ⟨_, if_neg h, .inl ⟨h, rfl⟩⟩
  | ret =>
    by_cases h : s.sp = 0
    · exact ⟨_, if_pos h, .inr ⟨_, _, rfl, rfl⟩⟩
    · exact ⟨_, if_neg h, .inl ⟨h, rfl⟩⟩
  | skp x =>
    simp only [exec, execSkp]
    split
    · exact ⟨_, rfl, .inl ⟨_, rfl⟩⟩
    · exact ⟨_, rfl, .inr ⟨_, _, rfl, rfl⟩⟩
  | sknp x =>
    simp only [exec, execSknp]
    split
    · exact ⟨_, rfl, .inl ⟨_, rfl⟩⟩
    · exact ⟨_, rfl, .inr ⟨_, _, rfl, rfl⟩⟩
  | ldVxK x =>
    refine ⟨_, rfl, .inl ?_⟩
    split
    · exact .inl ⟨by assumption, rfl⟩
    · exact .inr ⟨_, by assumption, rfl⟩
  | ldB x =>
    obtain ⟨t, h, ⟨ht, hb⟩ | ⟨a, ht⟩⟩ := bounded_cases (.ldB x) 3 s
      { s with mem := s.mem.writeBytes s.i.toNat (bcdDigits (s.getV x)) }.finish
    · exact ⟨t, h, .inl ⟨by omega, ht⟩⟩
    · exact ⟨t, h, .inr ⟨_, a, rfl, ht⟩⟩
  | stRegs x =>
    obtain ⟨t, h, ⟨ht, hb⟩ | ⟨a, ht⟩⟩ := bounded_cases (.stRegs x) (x.val + 1) s
      { s with mem := s.mem.writeBytes s.i.toNat (regsUpTo x s), i := indexAfterBulk x s }.finish
    · exact ⟨t, h, .inl ⟨by omega, ht⟩⟩
    · exact ⟨t, h, .inr ⟨_, a, rfl, ht⟩⟩
  | ldRegs x =>
    obtain ⟨t, h, ⟨ht, hb⟩ | ⟨a, ht⟩⟩ := bounded_cases (.ldRegs x) (x.val + 1) s
      { s with v := regsLoaded x s, i := indexAfterBulk x s }.finish
    · exact ⟨t, h, .inl ⟨by omega, ht⟩⟩
    · exact ⟨t, h, .inr ⟨_, a, rfl, ht⟩⟩
  | drw x y n =>
    obtain ⟨t, h, ⟨ht, hb⟩ | ⟨a, ht⟩⟩ := bounded_cases (.drw x y n) n s
      ({ s with fb := (drawSprite (s.getV x) (s.getV y) (spriteRows n s) s.fb).1, render := true }.setV regVF
        (collisionFlag (drawSprite (s.getV x) (s.getV y) (spriteRows n s) s.fb).2)).finish
    · exact ⟨t, h, .inl ⟨hb, ht⟩⟩
    · exact ⟨t, h, .inr ⟨_, a, rfl, ht⟩⟩
  | cls | jp | jpV0 | ldI | ldF | ldDtVx | ldStVx => exact ⟨_, rfl, .inl rfl⟩
  | seImm | sneImm | seReg | sneReg => exact ⟨_, rfl, .inl ⟨_, rfl⟩⟩
  | ldImm | addImm | ldReg | orReg | andReg | xorReg | rnd | ldVxDt | addI => exact ⟨_, rfl, .inl ⟨_, rfl⟩⟩
  | addReg | subReg | subnReg | shr | shl => exact ⟨_, rfl, .inl ⟨_, _, rfl⟩⟩

/-- The turn of a `step` event is the front of the step in the state that event sees (R247). -/
theorem takeTurn_of_stepEvent {s t : State} (h : StepEvent s t) : takeTurn s = frontEnd t := by
  obtain ⟨p, hp, rfl⟩ := h
  rw [takeTurn, hp]

/-- What a `step` event sees is the state as it was, but for the inputs and the model's own fields (R31, R247). -/
theorem stepEvent_frame {s t : State} (h : StepEvent s t) :
    t = { s with inputs := t.inputs, schedule := t.schedule, drawn := t.drawn } := by
  obtain ⟨p, -, rfl⟩ := h
  unfold State.popEvent; split <;> rfl

end Sys2Proof.Machine
end

