-- ==== Sys2Proof/Laws/Frame.lean ====
section
/-! SUPPORT. The laws of the display buffer: what one pixel is after a clear, a toggle, a run of toggles. -/

namespace Sys2Proof.Machine

/-- Every pixel of a cleared buffer is false (R161). -/
@[simp] theorem pixel_clear (p : Point) : Frame.clear.pixel p = false := by
  simp [Frame.clear, Frame.pixel]

/-- A toggle inverts its pixel and no other (R160). -/
theorem pixel_toggle (f : Frame) (p q : Point) :
    (f.toggle p).pixel q = if q = p then !f.pixel p else f.pixel q := by
  obtain ⟨px, py⟩ := p
  obtain ⟨qx, qy⟩ := q
  simp only [Frame.toggle, Frame.pixel, Fin.getElem_fin, Prod.mk.injEq]
  by_cases hy : qy = py
  · subst hy
    by_cases hx : qx = px
    · subst hx; simp
    · have : px.val ≠ qx.val := fun e => hx (Fin.ext e.symm)
      simp [hx, this]
  · have : py.val ≠ qy.val := fun e => hy (Fin.ext e.symm)
    simp [hy, this]

/-- Two buffers with the same pixels are the same buffer. -/
theorem frame_ext {f g : Frame} (h : ∀ p, f.pixel p = g.pixel p) : f = g := by
  refine Vector.ext fun y hy => Vector.ext fun x hx => ?_
  exact h (⟨x, hx⟩, ⟨y, hy⟩)

theorem toggleAll_cons (p : Point) (points : List Point) (acc : Frame × Bool) :
    toggleAll (p :: points) acc = toggleAll points (acc.1.toggle p, acc.2 || acc.1.pixel p) := rfl

/-- Toggling distinct pixels inverts exactly those (R163). -/
theorem pixel_toggleAll {points : List Point} (hd : points.Nodup) (f : Frame) (hit : Bool) (q : Point) :
    (toggleAll points (f, hit)).1.pixel q = (f.pixel q ^^ decide (q ∈ points)) := by
  induction points generalizing f hit with
  | nil => simp [toggleAll]
  | cons p rest ih =>
    rw [List.nodup_cons] at hd
    rw [toggleAll_cons, ih hd.2, pixel_toggle]
    by_cases h : q = p
    · subst h; simp [hd.1]
    · simp [h]

/-- The collision flag of distinct toggles: one of the pixels was lit before them (R162, R163). -/
theorem hit_toggleAll {points : List Point} (hd : points.Nodup) (f : Frame) (hit : Bool) :
    (toggleAll points (f, hit)).2 = (hit || points.any (fun p => f.pixel p)) := by
  induction points generalizing f hit with
  | nil => simp [toggleAll]
  | cons p rest ih =>
    rw [List.nodup_cons] at hd
    rw [toggleAll_cons, ih hd.2, List.any_cons, Bool.or_assoc]
    congr 2
    rw [Bool.eq_iff_iff]
    simp only [List.any_eq_true, pixel_toggle]
    refine exists_congr fun q => and_congr_right fun hq => ?_
    rw [if_neg (by rintro rfl; exact hd.1 hq)]

/-- The pixels of one sprite row: those of its 1 bits (R162). -/
theorem mem_rowPoints {xs ys : Byte} {r : Nat} {b : Byte} {p : Point} :
    p ∈ rowPoints xs ys r b ↔ ∃ c < 8, b.getLsbD (7 - c) = true ∧ p = spritePoint xs ys r c := by
  simp only [rowPoints, List.mem_map, List.mem_filter, List.mem_range]
  constructor
  · rintro ⟨c, ⟨h1, h2⟩, rfl⟩; exact ⟨c, h1, h2, rfl⟩
  · rintro ⟨c, h1, h2, rfl⟩; exact ⟨c, ⟨h1, h2⟩, rfl⟩

/-- The pixels of a sprite: those of the 1 bits of its rows (R162). -/
theorem mem_spritePoints {xs ys : Byte} {r : Nat} {rows : List Byte} {p : Point} :
    p ∈ spritePoints xs ys r rows ↔
      ∃ k, ∃ h : k < rows.length, ∃ c < 8, rows[k].getLsbD (7 - c) = true ∧ p = spritePoint xs ys (r + k) c := by
  induction rows generalizing r with
  | nil => simp [spritePoints]
  | cons b rest ih =>
    simp only [spritePoints, List.mem_append, mem_rowPoints, ih]
    constructor
    · rintro (h | ⟨k, hk, c, hc, hb, rfl⟩)
      · exact ⟨0, by simp, h⟩
      · exact ⟨k + 1, by simpa using hk, c, hc, by simpa using hb, by rw [show r + (k + 1) = r + 1 + k by omega]⟩
    · rintro ⟨k, hk, c, hc, hb, rfl⟩
      cases k with
      | zero => exact .inl ⟨c, hc, by simpa using hb, rfl⟩
      | succ k =>
        exact .inr ⟨k, by simpa using hk, c, hc, by simpa using hb, by rw [show r + (k + 1) = r + 1 + k by omega]⟩

/-- The eight columns of a row are distinct (R163). -/
theorem nodup_rowPoints (xs ys : Byte) (r : Nat) (b : Byte) : (rowPoints xs ys r b).Nodup := by
  refine (List.nodup_range.filter _).map_on ?_
  intro c hc d hd h
  simp only [List.mem_filter, List.mem_range] at hc hd
  simp only [spritePoint, Prod.mk.injEq, Fin.ext_iff, Fin.val_ofNat] at h
  omega

/-- No pixel of a sprite of at most 32 rows is covered twice (R163). -/
theorem nodup_spritePoints (xs ys : Byte) (r : Nat) (rows : List Byte) (h : rows.length ≤ 32) :
    (spritePoints xs ys r rows).Nodup := by
  induction rows generalizing r with
  | nil => simp [spritePoints]
  | cons b rest ih =>
    simp only [List.length_cons] at h
    simp only [spritePoints]
    refine List.nodup_append.2 ⟨nodup_rowPoints _ _ _ _, ih _ (by omega), ?_⟩
    rintro p hp q hq rfl
    obtain ⟨c, hc, -, rfl⟩ := mem_rowPoints.1 hp
    obtain ⟨k, hk, d, hd, -, he⟩ := mem_spritePoints.1 hq
    simp only [spritePoint, Prod.mk.injEq, Fin.ext_iff, Fin.val_ofNat] at he
    omega

end Sys2Proof.Machine
end

