-- ==== Sys2Proof/Laws/PerInstr.lean ====
section
/-! SUPPORT. Statements made for all instructions, one lemma per constructor. -/

namespace Sys2Proof.Laws.EncodeMatchesRow

/-- The word the encoder gives a well-formed instruction selects that instruction's row of the opcode map (R64). -/
def Statement (i : Instr) : Prop :=
  i.wellFormed = true → encode i &&& (tableRow i).1 = (tableRow i).2

/-- Mask `0xF000`, from the number of the word. -/
theorem of_F000 {w m : Word} (h : w.toNat / 4096 * 4096 = m.toNat) : w &&& (0xF000 : Word) = m :=
  BitVec.eq_of_toNat_eq ((toNat_and_F000 w).trans h)

/-- Mask `0xF00F`, from the number of the word. -/
theorem of_F00F {w m : Word} (h : w.toNat / 4096 * 4096 + w.toNat % 16 = m.toNat) : w &&& (0xF00F : Word) = m :=
  BitVec.eq_of_toNat_eq ((toNat_and_F00F w).trans h)

/-- Mask `0xF0FF`, from the number of the word. -/
theorem of_F0FF {w m : Word} (h : w.toNat / 4096 * 4096 + w.toNat % 256 = m.toNat) : w &&& (0xF0FF : Word) = m :=
  BitVec.eq_of_toNat_eq ((toNat_and_F0FF w).trans h)

/-- The number of a word of four nibbles. -/
theorem toNat_nibbles {f x y n : Nat} (hf : f < 16) (hx : x < 16) (hy : y < 16) (hn : n < 16) :
    (nibbles f x y n).toNat = f * 4096 + x * 256 + y * 16 + n := by
  simp only [nibbles, BitVec.toNat_ofNat]; omega

/-- The number of a word of formats XNN and X. -/
theorem toNat_wordX {f low : Nat} {x : Reg} (hf : f < 16) (hl : low < 256) :
    (wordX f x low).toNat = f * 4096 + x.val * 256 + low := by
  simp only [wordX, BitVec.toNat_ofNat]; omega

/-- The number of a word of format NNN. -/
theorem toNat_wordNnn {f : Nat} {a : Word} (hf : f < 16) (ha : a.toNat < 4096) :
    (wordNnn f a).toNat = f * 4096 + a.toNat := by
  simp only [wordNnn, BitVec.toNat_ofNat]; omega

theorem cls : Statement .cls := by
  intro _; decide

theorem ret : Statement .ret := by
  intro _; decide

theorem jp (nnn : Word) : Statement (.jp nnn) := by
  intro h
  simp only [Instr.wellFormed, addressFits, decide_eq_true_eq] at h
  refine of_F000 ?_
  rw [encode, toNat_wordNnn (by decide) h]; simp [tableRow]; omega

theorem call (nnn : Word) : Statement (.call nnn) := by
  intro h
  simp only [Instr.wellFormed, addressFits, decide_eq_true_eq] at h
  refine of_F000 ?_
  rw [encode, toNat_wordNnn (by decide) h]; simp [tableRow]; omega

theorem seImm (x : Reg) (nn : Byte) : Statement (.seImm x nn) := by
  intro _
  refine of_F000 ?_
  rw [encode, toNat_wordX (by decide) nn.isLt]; simp [tableRow]; omega

theorem sneImm (x : Reg) (nn : Byte) : Statement (.sneImm x nn) := by
  intro _
  refine of_F000 ?_
  rw [encode, toNat_wordX (by decide) nn.isLt]; simp [tableRow]; omega

theorem seReg (x y : Reg) : Statement (.seReg x y) := by
  intro _
  refine of_F000 ?_
  rw [encode, toNat_nibbles (by decide) x.isLt y.isLt (by decide)]; simp [tableRow]; omega

theorem ldImm (x : Reg) (nn : Byte) : Statement (.ldImm x nn) := by
  intro _
  refine of_F000 ?_
  rw [encode, toNat_wordX (by decide) nn.isLt]; simp [tableRow]; omega

theorem addImm (x : Reg) (nn : Byte) : Statement (.addImm x nn) := by
  intro _
  refine of_F000 ?_
  rw [encode, toNat_wordX (by decide) nn.isLt]; simp [tableRow]; omega

theorem ldReg (x y : Reg) : Statement (.ldReg x y) := by
  intro _
  refine of_F00F ?_
  rw [encode, toNat_nibbles (by decide) x.isLt y.isLt (by decide)]; simp [tableRow]; omega

theorem orReg (x y : Reg) : Statement (.orReg x y) := by
  intro _
  refine of_F00F ?_
  rw [encode, toNat_nibbles (by decide) x.isLt y.isLt (by decide)]; simp [tableRow]; omega

theorem andReg (x y : Reg) : Statement (.andReg x y) := by
  intro _
  refine of_F00F ?_
  rw [encode, toNat_nibbles (by decide) x.isLt y.isLt (by decide)]; simp [tableRow]; omega

theorem xorReg (x y : Reg) : Statement (.xorReg x y) := by
  intro _
  refine of_F00F ?_
  rw [encode, toNat_nibbles (by decide) x.isLt y.isLt (by decide)]; simp [tableRow]; omega

theorem addReg (x y : Reg) : Statement (.addReg x y) := by
  intro _
  refine of_F00F ?_
  rw [encode, toNat_nibbles (by decide) x.isLt y.isLt (by decide)]; simp [tableRow]; omega

theorem subReg (x y : Reg) : Statement (.subReg x y) := by
  intro _
  refine of_F00F ?_
  rw [encode, toNat_nibbles (by decide) x.isLt y.isLt (by decide)]; simp [tableRow]; omega

theorem shr (x y : Reg) : Statement (.shr x y) := by
  intro _
  refine of_F00F ?_
  rw [encode, toNat_nibbles (by decide) x.isLt y.isLt (by decide)]; simp [tableRow]; omega

theorem subnReg (x y : Reg) : Statement (.subnReg x y) := by
  intro _
  refine of_F00F ?_
  rw [encode, toNat_nibbles (by decide) x.isLt y.isLt (by decide)]; simp [tableRow]; omega

theorem shl (x y : Reg) : Statement (.shl x y) := by
  intro _
  refine of_F00F ?_
  rw [encode, toNat_nibbles (by decide) x.isLt y.isLt (by decide)]; simp [tableRow]; omega

theorem sneReg (x y : Reg) : Statement (.sneReg x y) := by
  intro _
  refine of_F000 ?_
  rw [encode, toNat_nibbles (by decide) x.isLt y.isLt (by decide)]; simp [tableRow]; omega

theorem ldI (nnn : Word) : Statement (.ldI nnn) := by
  intro h
  simp only [Instr.wellFormed, addressFits, decide_eq_true_eq] at h
  refine of_F000 ?_
  rw [encode, toNat_wordNnn (by decide) h]; simp [tableRow]; omega

theorem jpV0 (nnn : Word) : Statement (.jpV0 nnn) := by
  intro h
  simp only [Instr.wellFormed, addressFits, decide_eq_true_eq] at h
  refine of_F000 ?_
  rw [encode, toNat_wordNnn (by decide) h]; simp [tableRow]; omega

theorem rnd (x : Reg) (nn : Byte) : Statement (.rnd x nn) := by
  intro _
  refine of_F000 ?_
  rw [encode, toNat_wordX (by decide) nn.isLt]; simp [tableRow]; omega

theorem drw (x y : Reg) (n : Nat) : Statement (.drw x y n) := by
  intro h
  simp only [Instr.wellFormed, rowCountFits, decide_eq_true_eq] at h
  refine of_F000 ?_
  rw [encode, toNat_nibbles (by decide) x.isLt y.isLt h]; simp [tableRow]; omega

theorem skp (x : Reg) : Statement (.skp x) := by
  intro _
  refine of_F0FF ?_
  rw [encode, toNat_wordX (by decide) (by decide)]; simp [tableRow]; omega

theorem sknp (x : Reg) : Statement (.sknp x) := by
  intro _
  refine of_F0FF ?_
  rw [encode, toNat_wordX (by decide) (by decide)]; simp [tableRow]; omega

theorem ldVxDt (x : Reg) : Statement (.ldVxDt x) := by
  intro _
  refine of_F0FF ?_
  rw [encode, toNat_wordX (by decide) (by decide)]; simp [tableRow]; omega

theorem ldVxK (x : Reg) : Statement (.ldVxK x) := by
  intro _
  refine of_F0FF ?_
  rw [encode, toNat_wordX (by decide) (by decide)]; simp [tableRow]; omega

theorem ldDtVx (x : Reg) : Statement (.ldDtVx x) := by
  intro _
  refine of_F0FF ?_
  rw [encode, toNat_wordX (by decide) (by decide)]; simp [tableRow]; omega

theorem ldStVx (x : Reg) : Statement (.ldStVx x) := by
  intro _
  refine of_F0FF ?_
  rw [encode, toNat_wordX (by decide) (by decide)]; simp [tableRow]; omega

theorem addI (x : Reg) : Statement (.addI x) := by
  intro _
  refine of_F0FF ?_
  rw [encode, toNat_wordX (by decide) (by decide)]; simp [tableRow]; omega

theorem ldF (x : Reg) : Statement (.ldF x) := by
  intro _
  refine of_F0FF ?_
  rw [encode, toNat_wordX (by decide) (by decide)]; simp [tableRow]; omega

theorem ldB (x : Reg) : Statement (.ldB x) := by
  intro _
  refine of_F0FF ?_
  rw [encode, toNat_wordX (by decide) (by decide)]; simp [tableRow]; omega

theorem stRegs (x : Reg) : Statement (.stRegs x) := by
  intro _
  refine of_F0FF ?_
  rw [encode, toNat_wordX (by decide) (by decide)]; simp [tableRow]; omega

theorem ldRegs (x : Reg) : Statement (.ldRegs x) := by
  intro _
  refine of_F0FF ?_
  rw [encode, toNat_wordX (by decide) (by decide)]; simp [tableRow]; omega

end Sys2Proof.Laws.EncodeMatchesRow
end

