-- ==== Sys2Proof/Tests/Slice0.lean ====
section
/-! SUPPORT. Tests of the model against expected results of the spec (words of R64, vectors of `95_test_vectors.md`), each
one step on a small state, and one witness for each obligation that has hypotheses. -/

namespace Sys2Proof.Tests

open Sys2Proof Sys2Proof.Machine

/-! ## Well-formedness: one ill-formed term for each check -/

theorem test_address_over_twelve_bits_is_ill_formed :
    (Instr.jp 0x1000).wellFormed = false ∧ (Instr.call 0x1000).wellFormed = false ∧
    (Instr.ldI 0xFFFF).wellFormed = false ∧ (Instr.jpV0 0x1000).wellFormed = false := by decide

theorem test_row_count_over_four_bits_is_ill_formed : (Instr.drw 0 1 16).wellFormed = false := by decide

theorem test_largest_fields_are_well_formed :
    (Instr.jp 0x0FFF).wellFormed = true ∧ (Instr.drw 15 15 15).wellFormed = true := by decide

/-! ## Decoding: the words written out from the patterns of R64 -/

theorem test_decode_family_0 :
    decodeWord 0b0000000011100000 = some .cls ∧ decodeWord 0b0000000011101110 = some .ret ∧
    decodeWord 0x0000 = none ∧ decodeWord 0x00E1 = none ∧ decodeWord 0x01E0 = none ∧ decodeWord 0x0123 = none := by
  decide

theorem test_decode_jumps :
    decodeWord 0b0001001100000000 = some (.jp 0x300) ∧ decodeWord 0b0010001000001110 = some (.call 0x20E) ∧
    decodeWord 0b1011001100010010 = some (.jpV0 0x312) := by decide

theorem test_decode_skips :
    decodeWord 0b0011000001000010 = some (.seImm 0 0x42) ∧ decodeWord 0b0100011101000010 = some (.sneImm 7 0x42) ∧
    decodeWord 0b0101000100100000 = some (.seReg 1 2) ∧ decodeWord 0x5121 = some (.seReg 1 2) ∧
    decodeWord 0b1001000100100000 = some (.sneReg 1 2) ∧ decodeWord 0x9013 = some (.sneReg 0 1) := by decide

theorem test_decode_immediates :
    decodeWord 0b0110000011001000 = some (.ldImm 0 0xC8) ∧ decodeWord 0b0111111100000001 = some (.addImm 15 0x01) ∧
    decodeWord 0b1100000000001111 = some (.rnd 0 0x0F) ∧ decodeWord 0b1010001100000000 = some (.ldI 0x300) := by decide

theorem test_decode_family_8 :
    decodeWord 0b1000001000110000 = some (.ldReg 2 3) ∧ decodeWord 0b1000001000110001 = some (.orReg 2 3) ∧
    decodeWord 0b1000001000110010 = some (.andReg 2 3) ∧ decodeWord 0b1000001000110011 = some (.xorReg 2 3) ∧
    decodeWord 0b1000001000110100 = some (.addReg 2 3) ∧ decodeWord 0b1000001000110101 = some (.subReg 2 3) ∧
    decodeWord 0b1000001000110110 = some (.shr 2 3) ∧ decodeWord 0b1000001000110111 = some (.subnReg 2 3) ∧
    decodeWord 0b1000001000111110 = some (.shl 2 3) := by decide

theorem test_decode_unknown_words_of_families_8_E_F :
    decodeWord 0x8008 = none ∧ decodeWord 0x801F = none ∧ decodeWord 0xE000 = none ∧ decodeWord 0xE09F = none ∧
    decodeWord 0xF000 = none ∧ decodeWord 0xF00B = none ∧ decodeWord 0xF154 = none ∧ decodeWord 0xFFFF = none := by decide

theorem test_decode_draw : decodeWord 0b1101000100101111 = some (.drw 1 2 15) := by decide

theorem test_decode_family_E :
    decodeWord 0b1110000110011110 = some (.skp 1) ∧ decodeWord 0b1110000110100001 = some (.sknp 1) := by decide

theorem test_decode_family_F :
    decodeWord 0b1111001100000111 = some (.ldVxDt 3) ∧ decodeWord 0b1111001100001010 = some (.ldVxK 3) ∧
    decodeWord 0b1111001100010101 = some (.ldDtVx 3) ∧ decodeWord 0b1111001100011000 = some (.ldStVx 3) ∧
    decodeWord 0b1111001100011110 = some (.addI 3) ∧ decodeWord 0b1111001100101001 = some (.ldF 3) ∧
    decodeWord 0b1111001100110011 = some (.ldB 3) ∧ decodeWord 0b1111001101010101 = some (.stRegs 3) ∧
    decodeWord 0b1111001101100101 = some (.ldRegs 3) := by decide

theorem test_decode_bytes_high_byte_first :
    decodeBytes [0x80, 0x14, 0x99] = .ok (.addReg 0 1, [0x99]) ∧ decodeBytes [0x80] = .error .tooShort := by
  constructor <;> rfl

theorem test_decode_table_word : decodeTableWord 16 0x1300 = some (.jp 0x300) := by decide

/-! ## One step on a small state; expected values from `95_test_vectors.md` -/

/-- The reset state with these values in `V0`, `V1` and `VF`. -/
def setup (v0 v1 vf : Byte) : State := ((State.reset.setV 0 v0).setV 1 v1).setV 15 vf

/-- The reset state with these values and these parameters. -/
def quirky (p : Params) (v0 v1 vf : Byte) : State := { setup v0 v1 vf with params := p }

/-- All four quirk toggles as given, the rest at the defaults of R4. -/
def quirks (shiftVy lsInc jumpVx addiVf : Bool) : Params :=
  { defaultParams with qShiftVy := shiftVy, qLsIncI := lsInc, qJumpVx := jumpVx, qAddiVf := addiVf }

/-- The state after one step of the word `w`, laid where the next fetch takes it. -/
def after (w : Nat) (s : State) : State :=
  match step (s.withFetchWord 16 w) with
  | .next t => t
  | .fault _ | .refused _ => s

/-- The record the step latched, as numbers. -/
def record (s : State) : Option (Cause × Option Word × Word × Word) := s.fault.map fun r => (r.cause, r.opcode, r.addr, r.info)

theorem test_jump : (after 0x1300 State.reset).pc = 0x0300 := by decide

theorem test_call :
    (after 0x220E State.reset).pc = 0x020E ∧ (after 0x220E State.reset).sp = 1 ∧
    (after 0x220E State.reset).stack[0] = 0x0200 := by decide

theorem test_call_overflow :
    record (after 0x2300 { State.reset with pc := 0x0400, sp := 16 }) =
      some (.stackOverflow, some 0x2300, 0x0400, 0x0400) := by decide

theorem test_return :
    (after 0x00EE { State.reset with pc := 0x020E, sp := 1, stack := State.reset.stack.set 0 0x0200 }).pc = 0x0202 ∧
    (after 0x00EE { State.reset with pc := 0x020E, sp := 1, stack := State.reset.stack.set 0 0x0200 }).sp = 0 := by decide

theorem test_return_underflow :
    record (after 0x00EE State.reset) = some (.stackUnderflow, some 0x00EE, 0x0200, 0x0200) := by decide

theorem test_jump_with_offset_not_masked : (after 0xBFFF (setup 0xFF 0 0)).pc = 0x10FE := by decide

theorem test_jump_with_offset_quirk :
    (after 0xB312 ((setup 0x04 0 0).setV 3 0x10)).pc = 0x0316 ∧
    (after 0xB312 ((quirky (quirks false false true false) 0x04 0 0).setV 3 0x10)).pc = 0x0322 := by decide

theorem test_skip_immediates :
    (after 0x3042 (setup 0x42 0 0)).pc = 0x0204 ∧ (after 0x3042 (setup 0x41 0 0)).pc = 0x0202 ∧
    (after 0x4042 (setup 0x42 0 0)).pc = 0x0202 ∧ (after 0x4042 (setup 0x41 0 0)).pc = 0x0204 := by decide

theorem test_skip_registers :
    (after 0x501F (setup 7 7 0)).pc = 0x0204 ∧ (after 0x5010 (setup 7 8 0)).pc = 0x0202 ∧
    (after 0x9010 (setup 7 7 0)).pc = 0x0202 ∧ (after 0x9013 (setup 7 8 0)).pc = 0x0204 := by decide

theorem test_load_immediate : (after 0x6F07 State.reset).v[15] = 0x07 := by decide

theorem test_add_immediate_no_flag :
    (after 0x7002 (setup 0xFF 0 1)).v[0] = 0x01 ∧ (after 0x7002 (setup 0xFF 0 1)).v[15] = 0x01 ∧
    (after 0x7F01 (setup 0 0 0xFF)).v[15] = 0x00 := by decide

theorem test_copy_and_logic :
    (after 0x8010 (setup 0 0x64 0)).v[0] = 0x64 ∧ (after 0x8011 (setup 0xF0 0x3C 1)).v[0] = 0xFC ∧
    (after 0x8012 (setup 0xF0 0x3C 1)).v[0] = 0x30 ∧ (after 0x8013 (setup 0xF0 0x3C 1)).v[0] = 0xCC ∧
    (after 0x8011 (setup 0xF0 0x3C 1)).v[15] = 0x01 := by decide

theorem test_add_carry :
    (after 0x8014 (setup 0xC8 0x64 0)).v[0] = 0x2C ∧ (after 0x8014 (setup 0xC8 0x64 0)).v[15] = 1 ∧
    (after 0x8014 (setup 1 2 1)).v[15] = 0 := by decide

theorem test_add_with_flag_as_operand :
    (after 0x8F14 (setup 0 0x64 0xC8)).v[15] = 1 ∧ (after 0x80F4 (setup 0x10 0 1)).v[0] = 0x11 ∧
    (after 0x80F4 (setup 0x10 0 1)).v[15] = 0 := by decide

theorem test_sub :
    (after 0x8015 (setup 5 10 0)).v[0] = 0xFB ∧ (after 0x8015 (setup 5 10 1)).v[15] = 0 ∧
    (after 0x8015 (setup 7 7 0)).v[15] = 1 := by decide

theorem test_subn :
    (after 0x8017 (setup 5 10 0)).v[0] = 0x05 ∧ (after 0x8017 (setup 5 10 0)).v[15] = 1 ∧
    (after 0x8017 (setup 10 5 1)).v[15] = 0 := by decide

theorem test_shr :
    (after 0x8016 (quirky (quirks false false false false) 0x05 0xF0 0)).v.toList.take 2 = [0x02, 0xF0] ∧
    (after 0x8016 (quirky (quirks false false false false) 0x05 0xF0 0)).v[15] = 1 ∧
    (after 0x8016 (quirky (quirks true false false false) 0x05 0xF0 1)).v.toList.take 2 = [0x78, 0xF0] ∧
    (after 0x8016 (quirky (quirks true false false false) 0x05 0xF0 1)).v[15] = 0 := by decide

theorem test_shl :
    (after 0x801E (quirky (quirks false false false false) 0x81 0x0F 0)).v.toList.take 2 = [0x02, 0x0F] ∧
    (after 0x801E (quirky (quirks false false false false) 0x81 0x0F 0)).v[15] = 1 ∧
    (after 0x801E (quirky (quirks true false false false) 0x81 0x0F 1)).v.toList.take 2 = [0x1E, 0x0F] ∧
    (after 0x801E (quirky (quirks true false false false) 0x81 0x0F 1)).v[15] = 0 := by decide

/-- A state whose next event is a step with these inputs. -/
def withInputs (keys : BitVec 16) (anyKey : Option Key) (rand : Byte) (s : State) : State :=
  { s with schedule := [.step ⟨keys, anyKey, rand⟩] }

theorem test_random :
    (after 0xC00F (withInputs 0 none 0xA7 State.reset)).v[0] = 0x07 ∧
    (after 0xC000 (withInputs 0 none 0xFF (setup 0x55 0 0))).v[0] = 0x00 := by decide

theorem test_index_loads :
    (after 0xAFFF State.reset).i = 0x0FFF ∧ (after 0xF129 (setup 0 0x0F 0)).i = 0x004B ∧
    (after 0xF129 (setup 0 0xFF 0)).i = 0x04FB := by decide

theorem test_add_to_index :
    (after 0xF11E { setup 0 2 0x77 with i := 0xFFFF }).i = 0x0001 ∧
    (after 0xF11E { setup 0 2 0x77 with i := 0xFFFF }).v[15] = 0x77 := by decide

theorem test_add_to_index_flag :
    (after 0xF11E { quirky (quirks true false false true) 0 2 0x77 with i := 0x0EFF }).v[15] = 1 ∧
    (after 0xF11E { quirky (quirks true false false true) 0 1 0x77 with i := 0x0EFF }).v[15] = 0 ∧
    (after 0xFF1E { quirky (quirks true false false true) 0 0 1 with i := 0x0F00 }).i = 0x0F01 := by decide

theorem test_bcd :
    ((after 0xF033 { setup 0xEA 0 0 with i := 0x0FFD }).mem.readBytes 0xFFD 3) = [0x02, 0x03, 0x04] := by decide

theorem test_bcd_out_of_bounds :
    record (after 0xF033 { setup 0xEA 0 0 with i := 0x0FFE }) = some (.outOfBounds, some 0xF033, 0x0200, 0x1000) ∧
    record (after 0xF033 { setup 0xEA 0 0 with i := 0x1234 }) = some (.outOfBounds, some 0xF033, 0x0200, 0x1234) ∧
    (after 0xF033 { setup 0xEA 0 0 with i := 0x0FFE }).mem.read 0xFFE = 0 := by decide

theorem test_bulk_store :
    ((after 0xF155 { setup 9 3 0 with i := 0x0300 }).mem.readBytes 0x300 3) = [0x09, 0x03, 0x00] ∧
    (after 0xF155 { setup 9 3 0 with i := 0x0300 }).i = 0x0300 ∧
    (after 0xF155 { quirky (quirks true true false false) 9 3 0 with i := 0x0300 }).i = 0x0302 := by decide

theorem test_bulk_load :
    (after 0xF265 { (setup 0 0 0).setV 3 0x77 with
      i := 0x0300, mem := Memory.writeBytes [] 0x300 [2, 3, 4, 5] }).v.toList.take 4 = [0x02, 0x03, 0x04, 0x77] ∧
    record (after 0xF165 { setup 0x11 0x22 0 with i := 0x0FFF }) =
      some (.outOfBounds, some 0xF165, 0x0200, 0x1000) := by decide

theorem test_clear_screen :
    (after 0x00E0 { State.reset with fb := (State.reset.fb.toggle (0, 0)).toggle (63, 31) }).fb = Frame.clear ∧
    (after 0x00E0 State.reset).render = true := by
  constructor <;> rfl

/-- Whether each of these places is lit. -/
def pixels (s : State) (ps : List Point) : List Bool := ps.map s.fb.pixel

/-- The wrapped sprite of P3 and of the vectors of section 2.4, its four lit pixels and its flag. -/
theorem test_draw_wraps :
    pixels (after 0xD012 { setup 0x3E 0x1F 0 with i := 0x020C, mem := Memory.writeBytes [] 0x20C [0xC0, 0x81] })
      [(62, 31), (63, 31), (62, 0), (5, 0), (0, 0), (0, 31), (4, 0)] =
      [true, true, true, true, false, false, false] ∧
    (after 0xD012 { setup 0x3E 0x1F 1 with i := 0x020C, mem := Memory.writeBytes [] 0x20C [0xC0, 0x81] }).v[15] = 0 := by
  constructor <;> rfl

theorem test_draw_collides :
    pixels (after 0xD011 { setup 0 0 0 with
      i := 0x0300, mem := Memory.writeBytes [] 0x300 [0xFF], fb := Frame.clear.toggle (7, 0) }) [(6, 0), (7, 0)] =
      [true, false] ∧
    (after 0xD011 { setup 0 0 0 with
      i := 0x0300, mem := Memory.writeBytes [] 0x300 [0xFF], fb := Frame.clear.toggle (7, 0) }).v[15] = 1 := by
  constructor <;> rfl

theorem test_key_skips :
    (after 0xE19E (withInputs 0x0080 (some 7) 0 (setup 0 7 0))).pc = 0x0204 ∧
    (after 0xE1A1 (withInputs 0x0080 (some 7) 0 (setup 0 7 0))).pc = 0x0202 ∧
    (after 0xE1A1 (withInputs 0 none 0 (setup 0 7 0))).pc = 0x0204 := by decide

theorem test_key_number_too_large :
    record (after 0xE19E (withInputs 0 none 0 (setup 0 16 0))) =
      some (.keyIndexOutOfRange, some 0xE19E, 0x0200, 0x0200) := by decide

theorem test_get_key :
    (after 0xF30A (withInputs 0x0080 (some 7) 0 State.reset)).v[3] = 0x07 ∧
    (after 0xF30A (withInputs 0 none 0 State.reset)).pc = 0x0200 ∧
    (after 0xF30A (withInputs 0 none 0 State.reset)).result = some .awaitingInput := by decide

theorem test_timer_copies :
    (after 0xF107 { State.reset with dt := 9 }).v[1] = 9 ∧ (after 0xF115 (setup 0 5 0)).dt = 5 ∧
    (after 0xF118 (setup 0 6 0)).st = 6 := by decide

theorem test_unknown_opcode :
    record (after 0xFFFF State.reset) = some (.unknownOpcode, some 0xFFFF, 0x0200, 0x0200) ∧
    (after 0xFFFF { State.reset with params := { defaultParams with skipUnknown := true } }).pc = 0x0202 := by decide

/-- The word placed for the next fetch is the very next event's, whatever was scheduled before it. -/
theorem test_placed_word_runs_next :
    (after 0x1300 { State.reset with schedule := [.tick, .renderAck, .step ⟨0, none, 0⟩] }).pc = 0x0300 ∧
    (after 0x1300 { State.reset with schedule := [.tick] }).pc = 0x0300 := by decide

theorem test_cause_codes :
    [Cause.unknownOpcode, .outOfBounds, .stackOverflow, .stackUnderflow, .keyIndexOutOfRange].map Cause.code =
      [1, 2, 3, 4, 5] := by decide

/-- At `PC = 0x0FFF` the fetch fails whatever the byte there (section 2.6, R209). -/
theorem test_fetch_at_last_byte :
    (match step { State.reset with pc := 0x0FFF, schedule := [.step ⟨0, none, 0⟩] } with
      | .next t => record t
      | .fault _ | .refused _ => none) =
      some (.outOfBounds, none, 0x0FFF, 0x1000) := by decide

theorem test_tick_floor :
    countDown 0 = 0 ∧ countDown 1 = 0 ∧ countDown 0xFF = 0xFE := by decide

/-- Glyph 3 of the default font, and memory after it (R242). -/
theorem test_reset_memory :
    State.reset.mem.readBytes 15 5 = [0xF0, 0x10, 0xF0, 0x10, 0xF0] ∧ State.reset.mem.read 0x4F = 0x80 ∧
    State.reset.mem.read 0x50 = 0 ∧ defaultFont.length = 80 := by decide

theorem test_reset_memory_is_canonical : State.reset.mem.wf := wf_nil

set_option maxRecDepth 4000 in
theorem test_reset_event_loads_the_program :
    (match step { State.reset with schedule := [.reset ⟨defaultParams, Vector.replicate 80 0x11, [0x12, 0x00]⟩] } with
      | .next t => t.mem.readBytes 0x4E 3 ++ t.mem.readBytes 0x200 3
      | .fault _ | .refused _ => []) = [0x11, 0x11, 0x00, 0x12, 0x00, 0x00] := by decide

/-! ## Witnesses: for each obligation with hypotheses, a state and operands that meet all of them together, each clause at
a boundary value of its range -/

/-- The reset state with `w` at `0x200` and these events to come. -/
def loaded (w : Nat) (events : List Event) : State := { State.reset.withFetchWord 16 w with schedule := events }

/-- No key down. -/
def noKey : StepInputs := ⟨0, none, 0⟩

/-- One step event with no key down. -/
def oneStep : List Event := [.step noKey]

/-- A halted machine with a step to come. -/
def halted : State := { State.reset.raise .unknownOpcode (some 0xFFFF) 0x0200 with schedule := oneStep }

theorem witness_DecodeOfEncodeIsTheInstruction :
    (Instr.jp 0x0FFF).wellFormed = true ∧ (Instr.drw 15 15 15).wellFormed = true ∧ Instr.cls.wellFormed = true := by decide

theorem witness_DecodedWordIsItsEncoding :
    decodeWord 0xFF65 = some (.ldRegs 15) ∧ decodeWord 0x5FFF = some (.seReg 15 15) := by decide

theorem witness_UnknownWordsByFamily :
    decodeWord 0x0000 = none ∧ decodeWord 0x0FFF = none ∧ decodeWord 0x800F = none ∧ decodeWord 0xEFFF = none ∧
    decodeWord 0xFFFF = none ∧ decodeWord 0x00E0 ≠ none ∧ decodeWord 0x1000 ≠ none := by decide

theorem witness_LowNibbleOfFamilies5And9Ignored : (15 : Nat) < 16 ∧ nibbles 5 1 2 15 = 0x512F := by decide

theorem witness_CallStacksItsOwnAddress :
    ({ State.reset with sp := 15 } : State).sp.toNat < 16 ∧ ({ State.reset with sp := 16 } : State).sp = 16 := by decide

theorem witness_ReturnGoesTwoPastTheStackedAddress :
    ({ State.reset with sp := 16 } : State).sp.toNat = (15 : Fin 16).val + 1 ∧
    ({ State.reset with sp := 1 } : State).sp.toNat = (0 : Fin 16).val + 1 ∧ State.reset.sp = 0 := by decide

theorem witness_CallThenReturnRoundTrip :
    ∃ t, ({ State.reset with sp := 15 } : State).sp.toNat < 16 ∧
      exec (.call 0x20E) { State.reset with sp := 15 } = .next t := ⟨_, by decide, rfl⟩

theorem witness_JumpWithOffsetAddsTheRegister :
    (0x0FFF : Word).toNat < 4096 ∧ (15 : Reg).val = (0x0FFF : Word).toNat / 256 := by decide

theorem witness_ShiftsByOneSetTheBitShiftedOut :
    (0xF0 : Byte) = (if (quirky (quirks true false false false) 0x05 0xF0 0).params.qShiftVy then 0xF0 else 0x05) ∧
    (0x05 : Byte) = (if (quirky (quirks false false false false) 0x05 0xF0 0).params.qShiftVy then 0xF0 else 0x05) := by
  decide

theorem witness_BcdStoresThreeDigits :
    ({ State.reset with i := 0x0FFD } : State).i.toNat + 2 < 4096 ∧
    4096 ≤ ({ State.reset with i := 0x0FFE } : State).i.toNat + 2 := by decide

theorem witness_BulkStoreWritesTheRegisters :
    ({ State.reset with i := 0x0FF0 } : State).i.toNat + (15 : Reg).val < 4096 ∧
    4096 ≤ ({ State.reset with i := 0x0FF1 } : State).i.toNat + (15 : Reg).val := by decide

theorem witness_BulkLoadReadsTheRegisters :
    ({ State.reset with i := 0x0FFF } : State).i.toNat + (0 : Reg).val < 4096 ∧
    4096 ≤ ({ State.reset with i := 0x1000 } : State).i.toNat + (0 : Reg).val := by decide

/-- A bulk store of a jump over the instruction that follows it. -/
def selfModifying : State := { setup 0x12 0x00 0 with i := 0x0202, schedule := oneStep }

theorem witness_StoreIntoTheInstructionStreamIsFetched :
    ∃ t u, selfModifying.running ∧ 1 ≤ (1 : Reg).val ∧ selfModifying.i = selfModifying.pc + 2 ∧
      selfModifying.i.toNat + (1 : Reg).val < 4096 ∧
      decodeBytes [selfModifying.v[(0 : Reg)], selfModifying.v[(1 : Reg)]] = .ok (.jp 0x200, []) ∧
      exec (.stRegs 1) selfModifying = .next t ∧ StepEvent t u :=
  ⟨_, _, rfl, by decide, by decide, by decide, rfl, rfl, ⟨_, rfl, rfl⟩⟩

theorem witness_DrawXorsTheCoveredPixels_ranges :
    ((0 : Nat) < 16 ∧ (15 : Nat) < 16) ∧ ({ State.reset with i := 0x0FF1 } : State).i.toNat + 15 ≤ 4096 ∧
    4096 < ({ State.reset with i := 0x0FF2 } : State).i.toNat + 15 ∧ (1 : Nat) ≤ 15 := by decide

/-- A one-row sprite whose column 7 falls on `(6, 31)`, lit before the draw. -/
def litDot : State := { setup 0x3F 0x1F 0 with
  i := 0x0300, mem := Memory.writeBytes [] 0x300 [0x01], fb := Frame.clear.toggle (6, 31) }

/-- The same with a clear screen. -/
def clearDot : State := { litDot with fb := Frame.clear }

theorem witness_DrawXorsTheCoveredPixels_lit :
    ∃ p, SpriteCovers litDot 0 1 1 p ∧ litDot.fb.pixel p = true :=
  ⟨(6, 31), ⟨0, 7, by decide, by decide, by decide, by decide, by decide⟩, by decide⟩

theorem witness_DrawXorsTheCoveredPixels_unlit :
    (∃ p, SpriteCovers clearDot 0 1 1 p) ∧ (∃ p, ¬ SpriteCovers clearDot 0 1 1 p) ∧
    ∀ p, SpriteCovers clearDot 0 1 1 p → clearDot.fb.pixel p = false := by
  refine ⟨⟨(6, 31), 0, 7, by decide, by decide, by decide, by decide, by decide⟩, ⟨(6, 0), ?_⟩, fun p _ => pixel_clear p⟩
  rintro ⟨r, c, hr, -, -, -, h⟩
  obtain rfl : r = 0 := by omega
  exact absurd h (by decide)

theorem witness_DrawTwiceRestoresTheBuffer :
    ∃ t u, ({ setup 0 0 0 with i := 0x0FF1 } : State).i.toNat + 15 ≤ 4096 ∧ (15 : Nat) < 16 ∧ (0 : Reg) ≠ 15 ∧
      (1 : Reg) ≠ 15 ∧ exec (.drw 0 1 15) { setup 0 0 0 with i := 0x0FF1 } = .next t ∧ exec (.drw 0 1 15) t = .next u :=
  ⟨_, _, by decide, by decide, by decide, by decide, rfl, rfl⟩

theorem witness_KeySkipsFollowTheKey :
    (setup 0 15 0).v[(1 : Reg)].toNat ≤ 15 ∧ 15 < (setup 0 16 0).v[(1 : Reg)].toNat := by decide

theorem witness_GetKeyWaitsWithoutChange :
    ({ State.reset with inputs := ⟨0x8000, some 15, 0⟩ } : State).inputs.anyKey = some 15 ∧
    State.reset.inputs.anyKey = none := by decide

theorem witness_GetKeyStallsWhileNoKeyIsDown :
    (loaded 0xF30A ([noKey, noKey].map Event.step)).running ∧
    WordAtPc (loaded 0xF30A ([noKey, noKey].map Event.step)) 0xF30A ∧ decodeWord 0xF30A = some (.ldVxK 3) ∧
    (∀ p ∈ [noKey, noKey], p.anyKey = none) ∧
    (loaded 0xF30A ([noKey, noKey].map Event.step)).schedule = [noKey, noKey].map Event.step :=
  ⟨rfl, ⟨by decide, by decide⟩, by decide, by decide, rfl⟩

/-- The last word of memory is a jump. -/
def lastWord : State := { State.reset with
  pc := 0x0FFE, mem := Memory.writeBytes [] 0xFFE [0x13, 0x00], schedule := oneStep }

theorem witness_StepRunsTheDecodedInstruction :
    ∃ t, StepEvent lastWord t ∧ lastWord.running ∧ lastWord.pc.toNat ≤ 0x0FFE ∧
      decodeBytes [lastWord.mem.read lastWord.pc.toNat, lastWord.mem.read (lastWord.pc.toNat + 1)] =
        .ok (.jp 0x300, []) :=
  ⟨_, ⟨_, rfl, rfl⟩, rfl, by decide, rfl⟩

theorem witness_FetchIsBigEndian :
    ∃ t, StepEvent lastWord t ∧ lastWord.running ∧ WordAtPc lastWord 0x1300 ∧ decodeWord 0x1300 = some (.jp 0x300) :=
  ⟨_, ⟨_, rfl, rfl⟩, rfl, ⟨by decide, by decide⟩, by decide⟩

theorem witness_FetchOutsideMemoryFaults :
    ∃ t, StepEvent { State.reset with pc := 0x0FFF, schedule := oneStep } t ∧ ({ State.reset with pc := 0x0FFF, schedule := oneStep } : State).running ∧
      0x0FFE < ({ State.reset with pc := 0x0FFF, schedule := oneStep } : State).pc.toNat :=
  ⟨_, ⟨_, rfl, rfl⟩, rfl, by decide⟩

theorem witness_UnknownOpcodeFaultsOrIsSkipped (skip : Bool) :
    ∃ t s, s.params.skipUnknown = skip ∧ StepEvent s t ∧ s.running ∧ WordAtPc s 0xFFFF ∧ decodeWord 0xFFFF = none :=
  ⟨_, { loaded 0xFFFF oneStep with params := { defaultParams with skipUnknown := skip } }, rfl, ⟨_, rfl, rfl⟩, rfl,
    ⟨by show (0x0200 : Word).toNat ≤ 0x0FFE; decide, by
      show (0xFFFF : Word).toNat = ((loaded 0xFFFF oneStep).mem.read 0x200).toNat * 256 +
        ((loaded 0xFFFF oneStep).mem.read 0x201).toNat
      decide⟩, by decide⟩

theorem witness_HaltedCoreDoesNothing :
    ∃ r t, halted.fault = some r ∧ StepEvent halted t ∧
      ({ halted with schedule := [.tick] } : State).fault = some r ∧
      ({ halted with schedule := [.tick] } : State).nextEvent = .tick :=
  ⟨_, _, rfl, ⟨_, rfl, rfl⟩, rfl, rfl⟩

theorem witness_TicksRunATimerDownToZero :
    ({ State.reset with dt := 2, st := 9, schedule := [.tick, .tick, .tick, .renderAck] } : State).running ∧
    ({ State.reset with dt := 2, st := 9, schedule := [.tick, .tick, .tick, .renderAck] } : State).schedule =
      List.replicate 3 .tick ++ [.renderAck] := ⟨rfl, rfl⟩

theorem witness_RenderAckClearsTheFlag :
    ({ halted with render := true, schedule := [.renderAck] } : State).nextEvent = .renderAck := rfl

/-- A boot with a program of `n` zero bytes. -/
def bootOf (n : Nat) : Boot := ⟨defaultParams, Vector.replicate 80 0, List.replicate n 0⟩

theorem length_bootOf (n : Nat) : (bootOf n).program.length = n := List.length_replicate

theorem witness_ResetEntersAt0x200 :
    ∃ t, ({ halted with schedule := [.reset (bootOf 1)] } : State).nextEvent = .reset (bootOf 1) ∧
      step { halted with schedule := [.reset (bootOf 1)] } = .next t := ⟨_, rfl, rfl⟩

theorem witness_ResetEventBuildsAFreshState :
    (bootOf 3584).program.length ≤ 3584 ∧ 3584 < (bootOf 3585).program.length ∧
    ({ halted with schedule := [.reset (bootOf 3584)] } : State).nextEvent = .reset (bootOf 3584) := by
  rw [length_bootOf, length_bootOf]; exact ⟨by decide, by decide, rfl⟩

theorem witness_JumpToSelfChangesNothing :
    ∃ t, StepEvent (loaded 0x1200 oneStep) t ∧ (loaded 0x1200 oneStep).running ∧ WordAtPc (loaded 0x1200 oneStep) 0x1200 ∧
      (0x1200 : Word).toNat = 0x1000 + (loaded 0x1200 oneStep).pc.toNat :=
  ⟨_, ⟨_, rfl, rfl⟩, rfl, ⟨by decide, by decide⟩, by decide⟩

theorem witness_RaisingStepIsPrecise :
    ∃ t u, StepEvent (loaded 0x00EE oneStep) t ∧ (loaded 0x00EE oneStep).running ∧ step (loaded 0x00EE oneStep) = .next u ∧
      u.fault ≠ none :=
  ⟨_, _, ⟨_, rfl, rfl⟩, rfl, rfl, by decide⟩

theorem witness_FaultRecordCarriesTheFetchedWord :
    ∃ t u r, StepEvent (loaded 0x00EE oneStep) t ∧ (loaded 0x00EE oneStep).running ∧ WordAtPc (loaded 0x00EE oneStep) 0x00EE ∧
      step (loaded 0x00EE oneStep) = .next u ∧ u.fault = some r :=
  ⟨_, _, _, ⟨_, rfl, rfl⟩, rfl, ⟨by decide, by decide⟩, rfl, rfl⟩

/-- Each of the four causes an instruction can raise is raised. -/
theorem witness_EachInstructionRaisesOneCauseAtMost :
    ((∃ t r, exec (.call 0) { State.reset with sp := 16 } = .next t ∧ t.fault = some r ∧ r.cause = .stackOverflow) ∧
    (∃ t r, exec .ret State.reset = .next t ∧ t.fault = some r ∧ r.cause = .stackUnderflow)) ∧
    (∃ t r, exec (.ldB 0) { State.reset with i := 0x0FFE } = .next t ∧ t.fault = some r ∧ r.cause = .outOfBounds) ∧
    ∃ t r, exec (.skp 1) (setup 0 16 0) = .next t ∧ t.fault = some r ∧ r.cause = .keyIndexOutOfRange :=
  ⟨⟨⟨_, _, rfl, rfl, rfl⟩, _, _, rfl, rfl, rfl⟩, ⟨_, _, rfl, rfl, rfl⟩, _, _, rfl, rfl, rfl⟩

theorem witness_OnlyResetLeavesTheHaltedState :
    ∃ t r, halted.fault = some r ∧ (∀ boot, halted.nextEvent ≠ .reset boot) ∧ step halted = .next t :=
  ⟨_, _, rfl, fun _ h => (by cases h), rfl⟩

theorem witness_OnlyAnOversizeLoadStops :
    (∃ t, step (loaded 0x1200 oneStep) = .next t) ∧ 3584 < (bootOf 3585).program.length := by
  rw [length_bootOf]; exact ⟨⟨_, rfl⟩, by decide⟩

theorem witness_EveryWayPcIsSet :
    ∃ t u, exec (.jpV0 0x0FFF) (setup 0xFF 0 0) = .next t ∧ (setup 0xFF 0 0).running ∧
      exec (.ldVxK 3) State.reset = .next u ∧ State.reset.running := ⟨_, _, rfl, rfl, rfl, rfl⟩

theorem witness_OnlyNamedRegistersChange :
    ∃ t, exec (.addReg 0 1) (setup 0xC8 0x64 0) = .next t ∧ t.v[(15 : Reg)] ≠ (setup 0xC8 0x64 0).v[(15 : Reg)] :=
  ⟨_, rfl, by decide⟩

theorem witness_OnlyDisplayInstructionsTouchTheDisplay :
    ∃ t, exec .cls State.reset = .next t ∧ (t.fb ≠ State.reset.fb ∨ t.render ≠ State.reset.render) :=
  ⟨_, rfl, .inr (by decide)⟩

theorem witness_OnlyStoresWriteMemory :
    ∃ t, exec (.ldB 0) { setup 0xEA 0 0 with i := 0x0FFD } = .next t ∧
      t.mem.read 0xFFF ≠ ({ setup 0xEA 0 0 with i := 0x0FFD } : State).mem.read 0xFFF := ⟨_, rfl, by decide⟩

theorem witness_OnlyCallAndReturnTouchTheStack :
    ∃ t, exec (.call 0x20E) State.reset = .next t ∧ t.sp ≠ State.reset.sp ∧ t.stack ≠ State.reset.stack :=
  ⟨_, rfl, by decide, by decide⟩

theorem witness_OnlyIndexInstructionsWriteTheIndex :
    ∃ t, exec (.stRegs 1) { quirky (quirks true true false false) 9 3 0 with i := 0x0300 } = .next t ∧
      t.i ≠ ({ quirky (quirks true true false false) 9 3 0 with i := 0x0300 } : State).i := ⟨_, rfl, by decide⟩

theorem witness_OnlyTimerSetsWriteTheTimers :
    (∃ t, exec (.ldDtVx 1) (setup 0 5 0) = .next t ∧ t.dt ≠ (setup 0 5 0).dt) ∧
    ∃ t, exec (.ldStVx 1) (setup 0 5 0) = .next t ∧ t.st ≠ (setup 0 5 0).st :=
  ⟨⟨_, rfl, by decide⟩, _, rfl, by decide⟩

theorem witness_OtherInstructionsIgnoreTheInputs :
    ∃ t, ReadsInput (.addReg 0 1) = false ∧ exec (.addReg 0 1) (setup 1 2 0) = .next t := ⟨_, rfl, rfl⟩

theorem witness_CanonicalMemoriesAreEqualData :
    Memory.wf [(0x000, 0x00), (0xFFF, 0x01)] ∧
    ∀ a, Memory.read [(0x000, 0x00), (0xFFF, 0x01)] a = Memory.read [(0x000, 0x00), (0xFFF, 0x01)] a :=
  ⟨by decide, fun _ => rfl⟩

/-- The boundary of the invariant: a full stack of the highest return addresses, the last `PC` a run can reach. -/
def deepest : State := { State.reset with
  sp := 16, stack := Vector.replicate 16 0x0FFE, pc := 0x10FE, schedule := oneStep }

theorem witness_EveryStepKeepsTheInvariant : deepest.Inv ∧ ∃ t, step deepest = .next t := by
  refine ⟨⟨wf_nil, by decide, by decide, by decide, ?_⟩, _, rfl⟩
  intro r h; cases h

theorem witness_KeypadInputsStayConsistent :
    (∃ t, step { State.reset with schedule := [.step ⟨0x8001, some 15, 0⟩] } = .next t) ∧
    State.inputsConsistent { State.reset with schedule := [.step ⟨0x8001, some 15, 0⟩] } := by
  refine ⟨⟨_, rfl⟩, ⟨⟨by decide, ?_⟩, ?_⟩⟩
  · intro k h; cases h
  · intro e he
    cases List.mem_singleton.1 he
    refine ⟨by decide, ?_⟩
    intro k h; cases h; decide

end Sys2Proof.Tests
end

section
/-! PROOFS. What an instruction can do to the state, said once for all instructions, and the obligations about the
frame of each piece of state (`10_state.md`, sections 2 to 9). -/

namespace Sys2Proof.Machine

/-! ## Decoded instructions are well formed -/

/-- An address field is at most 4095 (R62). -/
theorem addressFits_fieldNnn (w : Word) : addressFits (fieldNnn w) = true := by
  simp only [addressFits, fieldNnn, field, BitVec.toNat_ofNat, decide_eq_true_eq]
  omega

/-- A row count is at most 15 (R62). -/
theorem rowCountFits_field (w : Word) : rowCountFits (field w 3 0) = true := by
  exact decide_eq_true (Nat.mod_lt _ (by decide))

theorem wellFormed_of_decodeFamily0 {w : Word} {i : Instr} (h : decodeFamily0 w = some i) : i.wellFormed = true := by
  unfold decodeFamily0 at h
  split at h <;> cases h <;> rfl

theorem wellFormed_of_decodeFamily8 {w : Word} {i : Instr} (h : decodeFamily8 w = some i) : i.wellFormed = true := by
  unfold decodeFamily8 at h
  split at h <;> cases h <;> rfl

theorem wellFormed_of_decodeFamilyE {w : Word} {i : Instr} (h : decodeFamilyE w = some i) : i.wellFormed = true := by
  unfold decodeFamilyE at h
  split at h <;> cases h <;> rfl

theorem wellFormed_of_decodeFamilyF {w : Word} {i : Instr} (h : decodeFamilyF w = some i) : i.wellFormed = true := by
  unfold decodeFamilyF at h
  split at h <;> cases h <;> rfl

/-- What decodes is well formed: its fields are those of its format (R61, R62). -/
theorem wellFormed_of_decodeWord {w : Word} {i : Instr} (h : decodeWord w = some i) : i.wellFormed = true := by
  unfold decodeWord at h
  split at h
  case h_1 => exact wellFormed_of_decodeFamily0 h
  case h_9 => exact wellFormed_of_decodeFamily8 h
  case h_15 => exact wellFormed_of_decodeFamilyE h
  case h_16 => exact wellFormed_of_decodeFamilyF h
  case h_2 | h_3 | h_11 | h_12 => cases h; exact addressFits_fieldNnn w
  case h_14 => cases h; exact rowCountFits_field w
  all_goals cases h <;> rfl

/-! ## What an instruction can do -/

/-- What an instruction's answer says: it completed, or it raised a fatal condition of its own (R200, R209). -/
theorem exec_next_cases {i : Instr} {s t : State} (h : exec i s = .next t) :
    Completes s t i ∨ ∃ c a, CanRaise i c ∧ t = s.raise c (some (encode i)) a := by
  obtain ⟨u, hu, hc⟩ := exec_cases i s
  cases hu.symm.trans h
  exact hc

/-- What an instruction leaves as it was, part by part: each part of the state but the registers, `PC`, `FAULT` and the
result is as before, or the instruction is one of its writers (R12, R16 to R21, R23, R33, R47). -/
structure InstrFrame (i : Instr) (s t : State) : Prop where
  display : (t.fb = s.fb ∧ t.render = s.render) ∨ i = .cls ∨ ∃ x y n, i = .drw x y n
  callStack : (t.sp = s.sp ∧ t.stack = s.stack) ∨ (i = .ret ∧ s.sp ≠ 0 ∧ t.sp = s.sp - 1 ∧ t.stack = s.stack) ∨
    ∃ nnn, i = .call nnn ∧ s.sp ≠ 16 ∧ t.sp = s.sp + 1 ∧ t.stack = s.pushPc.stack
  index : t.i = s.i ∨ (∃ nnn, i = .ldI nnn) ∨ (∃ x, i = .ldF x) ∨ (∃ x, i = .addI x) ∨
    (s.params.qLsIncI = true ∧ ∃ x, i = .stRegs x ∨ i = .ldRegs x)
  memory : t.mem = s.mem ∨
    (∃ x, i = .ldB x ∨ i = .stRegs x) ∧ ∃ bytes, t.mem = s.mem.writeBytes s.i.toNat bytes
  delayTimer : t.dt = s.dt ∨ ∃ x, i = .ldDtVx x
  soundTimer : t.st = s.st ∨ ∃ x, i = .ldStVx x
  params : t.params = s.params
  inputs : t.inputs = s.inputs
  schedule : t.schedule = s.schedule
  drawn : t.drawn = s.drawn

/-- An instruction that moves no more than the registers, `PC`, `FAULT` and the result is a writer of no other part. -/
theorem InstrFrame.of_eq {i : Instr} {s t : State}
    (h : t = { s with v := t.v, pc := t.pc, fault := t.fault, result := t.result }) : InstrFrame i s t := by
  rw [h]
  exact ⟨.inl ⟨rfl, rfl⟩, .inl ⟨rfl, rfl⟩, .inl rfl, .inl rfl, .inl rfl, .inl rfl, rfl, rfl, rfl, rfl⟩

/-- The index moves in a bulk transfer only under `Q_LS_INC_I` (R145, R146). -/
theorem indexAfterBulk_cases (x : Reg) (s : State) : indexAfterBulk x s = s.i ∨ s.params.qLsIncI = true := by
  unfold indexAfterBulk
  cases s.params.qLsIncI <;> simp

/-- `ADD I,Vx` moves the index and, at most, a register (R142). -/
theorem Completes.addI {x : Reg} {s t : State} (h : Completes s t (.addI x)) :
    ∃ v, t = { s with i := s.i + zext16 (s.getV x), v := v }.finish := by
  obtain ⟨f, rfl⟩ := h
  split
  · exact ⟨s.v.set regVF f, rfl⟩
  · exact ⟨s.v, rfl⟩

/-- A completed instruction keeps to its frame. -/
theorem Completes.frame {i : Instr} {s t : State} (h : Completes s t i) : InstrFrame i s t := by
  cases i with
  | cls | ldI | ldF | ldDtVx | ldStVx => subst h; constructor <;> simp
  | drw => obtain ⟨-, rfl⟩ := h; constructor <;> simp
  | ret =>
    obtain ⟨hs, rfl⟩ := h
    constructor
    case callStack => exact .inr (.inl ⟨rfl, hs, rfl, rfl⟩)
    all_goals simp
  | call nnn =>
    obtain ⟨hs, rfl⟩ := h
    constructor
    case callStack => exact .inr (.inr ⟨nnn, rfl, hs, rfl, rfl⟩)
    all_goals simp
  | addI x => obtain ⟨_, rfl⟩ := h.addI; constructor <;> simp
  | ldB x =>
    obtain ⟨-, rfl⟩ := h
    constructor
    case memory => exact .inr ⟨⟨x, .inl rfl⟩, _, rfl⟩
    all_goals simp
  | stRegs x =>
    obtain ⟨-, rfl⟩ := h
    constructor
    case memory => exact .inr ⟨⟨x, .inr rfl⟩, _, rfl⟩
    case index => simpa using indexAfterBulk_cases x s
    all_goals simp
  | ldRegs x =>
    obtain ⟨-, rfl⟩ := h
    constructor
    case index => simpa using indexAfterBulk_cases x s
    all_goals simp
  | jp | jpV0 => subst h; exact .of_eq rfl
  | addReg | subReg | subnReg | shr | shl => obtain ⟨_, _, rfl⟩ := h; exact .of_eq rfl
  | ldVxK x => obtain ⟨-, rfl⟩ | ⟨_, -, rfl⟩ := h <;> exact .of_eq rfl
  | _ => obtain ⟨_, rfl⟩ := h; exact .of_eq rfl

/-- Every instruction keeps to its frame. -/
theorem exec_frame {i : Instr} {s t : State} (h : exec i s = .next t) : InstrFrame i s t := by
  obtain hc | ⟨_, _, -, rfl⟩ := exec_next_cases h
  · exact hc.frame
  · exact .of_eq rfl

/-- An instruction that completes latches no fatal condition (R200). -/
theorem Completes.fault_eq {i : Instr} {s t : State} (h : Completes s t i) : t.fault = s.fault := by
  cases i with
  | cls | ldI | ldF | ldDtVx | ldStVx | jp | jpV0 => subst h; rfl
  | ret | call | drw | ldB | stRegs | ldRegs => obtain ⟨-, rfl⟩ := h; rfl
  | addI x => obtain ⟨_, rfl⟩ := h.addI; rfl
  | addReg | subReg | subnReg | shr | shl => obtain ⟨_, _, rfl⟩ := h; rfl
  | ldVxK x => obtain ⟨-, rfl⟩ | ⟨_, -, rfl⟩ := h <;> rfl
  | _ => obtain ⟨_, rfl⟩ := h; rfl

/-! ## Registers -/

/-- A write changes no register but its own (R10). -/
theorem eq_of_getElem_set_ne {v : Vector Byte 16} {x r : Reg} {b : Byte} (h : (v.set x b)[r] ≠ v[r]) : r = x := by
  by_contra hne
  have : x.val ≠ r.val := fun e => hne (Fin.ext e.symm)
  exact h (by simp [this])

/-- A register and then the flag: no other register changes (R120). -/
theorem eq_or_flag_of_getElem_set_set_ne {v : Vector Byte 16} {x r : Reg} {b f : Byte}
    (h : ((v.set x b).set regVF f)[r] ≠ v[r]) : r = x ∨ r = regVF := by
  by_cases hf : r = regVF
  · exact .inr hf
  · exact .inl (eq_of_getElem_set_ne fun e => hf (eq_of_getElem_set_ne fun e' => h (e'.trans e)))

/-- A completed instruction changes no register it may not write (R10, R11). -/
theorem Completes.mayWriteRegister {i : Instr} {s t : State} {r : Reg} (h : Completes s t i)
    (hr : t.v[r] ≠ s.v[r]) : MayWriteRegister s.params i r := by
  cases i with
  | ldImm | addImm | ldReg | orReg | andReg | xorReg | rnd | ldVxDt =>
    obtain ⟨_, rfl⟩ := h
    exact eq_of_getElem_set_ne hr
  | addReg | subReg | subnReg | shr | shl =>
    obtain ⟨_, _, rfl⟩ := h
    exact eq_or_flag_of_getElem_set_set_ne hr
  | ldVxK x =>
    obtain ⟨-, rfl⟩ | ⟨_, -, rfl⟩ := h
    · exact absurd rfl hr
    · exact eq_of_getElem_set_ne hr
  | drw x y n =>
    obtain ⟨-, rfl⟩ := h
    exact eq_of_getElem_set_ne hr
  | addI x =>
    obtain ⟨f, rfl⟩ := h
    split at hr
    · exact ⟨by assumption, eq_of_getElem_set_ne hr⟩
    · exact absurd rfl hr
  | ldRegs x =>
    obtain ⟨-, rfl⟩ := h
    by_contra hx
    exact hr ((getElem_regsLoaded x s r).trans (if_neg hx))
  | cls | ldI | ldF | ldDtVx | ldStVx | jp | jpV0 => subst h; exact absurd rfl hr
  | ret | call | ldB | stRegs => obtain ⟨-, rfl⟩ := h; exact absurd rfl hr
  | seImm | sneImm | seReg | sneReg | skp | sknp => obtain ⟨_, rfl⟩ := h; exact absurd rfl hr

/-- Settles O50: a raise writes no register, and a completed instruction only its own. -/
theorem onlyNamedRegistersChange : Obligations.OnlyNamedRegistersChange := by
  intro i s t r h hr
  obtain hc | ⟨_, _, -, rfl⟩ := exec_next_cases h
  · exact hc.mayWriteRegister hr
  · exact absurd rfl hr

/-! ## Frames -/

/-- Settles O51, from the frame of the instructions. -/
theorem onlyDisplayInstructionsTouchTheDisplay : Obligations.OnlyDisplayInstructionsTouchTheDisplay := by
  intro i s t h hne
  obtain ⟨hfb, hrender⟩ | hw := (exec_frame h).display
  · exact (hne.elim (· hfb) (· hrender)).elim
  · exact hw

/-- Settles O53, from the frame of the instructions. -/
theorem onlyCallAndReturnTouchTheStack : Obligations.OnlyCallAndReturnTouchTheStack := by
  intro i s t h
  obtain ⟨hsp, hstack⟩ | ⟨hi, -, -, hstack⟩ | ⟨nnn, hi, -⟩ := (exec_frame h).callStack
  · exact ⟨fun hne => absurd hsp hne, fun hne => absurd hstack hne⟩
  · exact ⟨fun _ => .inl hi, fun hne => absurd hstack hne⟩
  · exact ⟨fun _ => .inr ⟨nnn, hi⟩, fun _ => ⟨nnn, hi⟩⟩

/-- Settles O54, from the frame of the instructions. -/
theorem onlyIndexInstructionsWriteTheIndex : Obligations.OnlyIndexInstructionsWriteTheIndex :=
  fun _ _ _ h hne => (exec_frame h).index.resolve_left hne

/-- Settles O55, from the frame of the instructions. -/
theorem onlyTimerSetsWriteTheTimers : Obligations.OnlyTimerSetsWriteTheTimers := by
  intro i s t h
  have hf := exec_frame h
  exact ⟨hf.delayTimer.resolve_left, hf.soundTimer.resolve_left, hf.params, hf.inputs, hf.schedule, hf.drawn⟩

/-! ## The program counter -/

/-- The register number in an address field is its third nibble (R104). -/
theorem val_addressX (nnn : Word) : (addressX nnn).val = nnn.toNat / 256 % 16 := by
  simp [addressX, field]

/-- A skip ends at one of two addresses (R14). -/
theorem finishSkip_pc_cases (s : State) (b : Bool) :
    (s.finishSkip b).pc = s.pc + 2 ∨ (s.finishSkip b).pc = s.pc + 4 := by
  cases b
  · exact .inl rfl
  · exact .inr rfl

/-- The return address is two past the entry under the top of the stack (R103). -/
theorem toNat_returnTarget (s : State) (k : Fin 16) (hk : s.sp.toNat = k.val + 1) :
    (s.stackEntry (s.sp - 1).toNat + 2).toNat = (s.stack[k].toNat + 2) % 65536 := by
  have hsp : (s.sp - 1).toNat = k.val := by bv_omega
  rw [hsp, stackEntry_of_lt s k.isLt, BitVec.toNat_add]
  rfl

/-- Settles O49: a raise leaves `PC`; a completed instruction, kind by kind, ends in its way of R14. -/
theorem everyWayPcIsSet : Obligations.EveryWayPcIsSet := by
  intro i s t h hrun
  obtain hc | ⟨_, _, -, rfl⟩ := exec_next_cases h
  · rw [if_neg (not_not.2 (hc.fault_eq.trans hrun))]
    cases i with
    | jp | cls | ldI | ldF | ldDtVx | ldStVx => subst hc; rfl
    | call | drw | ldB | stRegs | ldRegs => obtain ⟨-, rfl⟩ := hc; rfl
    | ret => obtain ⟨-, rfl⟩ := hc; exact toNat_returnTarget s
    | jpV0 nnn =>
      subst hc
      simp only [finishAt_pc, BitVec.toNat_add, toNat_zext16, jumpOffset]
      split
      · exact ⟨addressX nnn, rfl, .inr ⟨by assumption, val_addressX nnn⟩⟩
      · exact ⟨0, rfl, .inl rfl⟩
    | seImm | sneImm | seReg | sneReg | skp | sknp => obtain ⟨b, rfl⟩ := hc; exact finishSkip_pc_cases s b
    | ldVxK x =>
      obtain ⟨hk, rfl⟩ | ⟨k, hk, rfl⟩ := hc
      · rw [if_pos hk]
      · rw [if_neg (by simp [hk])]; rfl
    | addI x => obtain ⟨_, rfl⟩ := hc.addI; rfl
    | addReg | subReg | subnReg | shr | shl => obtain ⟨_, _, rfl⟩ := hc; rfl
    | ldImm | addImm | ldReg | orReg | andReg | xorReg | rnd | ldVxDt => obtain ⟨_, rfl⟩ := hc; rfl
  · rw [if_pos (by simp)]; rfl

end Sys2Proof.Machine
end

section
/-! PROOFS. What one event of the host can do, said once, and the invariants of the machine. -/

namespace Sys2Proof.Machine

/-! ## What one event of the host can do -/

/-- A turn that comes to an instruction answers what the instruction does. -/
theorem step_of_run {s t : State} {i : Instr} (h : takeTurn s = .run i t) : step s = exec i t := by
  rw [step, h]

/-- A turn that comes to no instruction has its answer already. -/
theorem step_of_over {s : State} {a : Answer} (h : takeTurn s = .over a) : step s = a := by
  rw [step, h]

/-- Everything one event of the host can make of a state (R44, R202, R203, R209, R213, R220, R224, R240, R247). -/
inductive Stepped (s : State) : State → Prop
  /-- A step of a halted core reports the record again. -/
  | halted {u : State} {record : FaultRecord} (event : StepEvent s u) (halt : u.fault = some record) :
      Stepped s { u with result := some (.fault record) }
  /-- A fetch outside memory. -/
  | badFetch {u : State} {a : Word} (event : StepEvent s u) (run : u.fault = none) :
      Stepped s (u.raise .outOfBounds none a)
  /-- A word that matches no row of the opcode table. -/
  | unknown {u : State} (event : StepEvent s u) (run : u.fault = none) (fetch : u.pc.toNat ≤ 0x0FFE) :
      Stepped s (u.unknownOpcode u.fetchedWord)
  /-- An instruction ran. -/
  | executed {u t : State} {i : Instr} (event : StepEvent s u) (run : u.fault = none) (fetch : u.pc.toNat ≤ 0x0FFE)
      (decoded : decodeWord u.fetchedWord = some i) (answer : exec i u = .next t) : Stepped s t
  | ticked (event : s.nextEvent = .tick) : Stepped s s.popEvent.tick
  | acknowledged (event : s.nextEvent = .renderAck) : Stepped s s.popEvent.renderAck
  /-- A reset whose program fits. -/
  | restarted {boot : Boot} (event : s.nextEvent = .reset boot) (fits : boot.program.length ≤ progMax) :
      Stepped s { State.fresh boot.params (bootMemory boot.font.toList boot.program) with
        schedule := s.popEvent.schedule, drawn := s.popEvent.drawn }

/-- A fetch is inside memory exactly when `PC` is at most `0x0FFE` (R44). -/
theorem pc_le_of_boundsFault_none {pc : Word} (h : boundsFault pc 2 = none) : pc.toNat ≤ 0x0FFE := by
  have := boundsFault_eq_none.1 h
  omega

/-- What a step event answers, by the front of the step (R209). -/
theorem stepped_of_stepEvent {s u t : State} (hu : StepEvent s u) (h : step s = .next t) : Stepped s t := by
  have hturn := takeTurn_of_stepEvent hu
  obtain ⟨r, hr, he⟩ | ⟨hrun, a, -, he⟩ | ⟨hrun, hb, -, he⟩ | ⟨hrun, hb, i, hd, he⟩ := frontEnd_cases u
  · cases (step_of_over (hturn.trans he)).symm.trans h
    exact .halted hu hr
  · cases (step_of_over (hturn.trans he)).symm.trans h
    exact .badFetch hu hrun
  · cases (step_of_over (hturn.trans he)).symm.trans h
    exact .unknown hu hrun (pc_le_of_boundsFault_none hb)
  · exact .executed hu hrun (pc_le_of_boundsFault_none hb) hd ((step_of_run (hturn.trans he)).symm.trans h)

/-- Whatever a step of the machine answers is one of the cases of `Stepped` (R247). -/
theorem stepped_of_step {s t : State} (h : step s = .next t) : Stepped s t := by
  obtain ⟨p, hp, -⟩ | ⟨hp, he⟩ | ⟨hp, he⟩ | ⟨boot, hp, he⟩ := takeTurn_cases s
  · exact stepped_of_stepEvent ⟨p, hp, rfl⟩ h
  · cases (step_of_over he).symm.trans h
    exact .ticked hp
  · cases (step_of_over he).symm.trans h
    exact .acknowledged hp
  · obtain ⟨hlen, hr⟩ | ⟨-, hr⟩ := resetEvent_cases s.popEvent boot
    · cases ((step_of_over he).trans hr).symm.trans h
      exact .restarted hp hlen
    · cases ((step_of_over he).trans hr).symm.trans h

/-! ## The invariant -/

/-- A state that agrees on what the invariant reads has it too. -/
theorem State.Inv.of_eq {s t : State} (h : s.Inv)
    (e : t = { s with v := t.v, i := t.i, dt := t.dt, st := t.st, fb := t.fb, render := t.render, params := t.params,
                      inputs := t.inputs, result := t.result, schedule := t.schedule, drawn := t.drawn }) : t.Inv := by
  rw [e]
  exact ⟨h.memory, h.stackPointer, h.returnAddresses, h.programCounter, h.haltedAt⟩

/-- Taking the host's next event off keeps the invariant. -/
theorem State.Inv.popEvent {s : State} (h : s.Inv) : s.popEvent.Inv := by
  unfold State.popEvent
  split <;> exact h.of_eq rfl

/-- What a step event sees has the invariant. -/
theorem State.Inv.stepEvent {s u : State} (h : s.Inv) (hu : StepEvent s u) : u.Inv := by
  obtain ⟨p, -, rfl⟩ := hu
  exact h.popEvent.of_eq rfl

/-- Raising a fatal condition keeps the invariant: the record names the `PC` the core halts at (R211). -/
theorem State.Inv.raise {s : State} (h : s.Inv) (c : Cause) (o : Option Word) (a : Word) : (s.raise c o a).Inv where
  memory := h.memory
  stackPointer := h.stackPointer
  returnAddresses := h.returnAddresses
  programCounter := h.programCounter
  haltedAt := by
    intro record hr
    cases hr
    rfl

/-- A tick keeps the invariant, halted or not. -/
theorem State.Inv.tick {s : State} (h : s.Inv) : s.tick.Inv := by
  unfold State.tick
  split
  · exact h.of_eq rfl
  · exact h

/-- An unknown opcode keeps the invariant, fatal or skipped (R206). -/
theorem State.Inv.unknownOpcode {s : State} (h : s.Inv) (hrun : s.fault = none) (hpc : s.pc.toNat ≤ 0x0FFE)
    (w : Word) : (s.unknownOpcode w).Inv := by
  obtain ⟨-, he⟩ | ⟨-, he⟩ := unknownOpcode_cases s w
  · rw [he]
    refine ⟨h.memory, h.stackPointer, h.returnAddresses, ?_, fun record hr => ?_⟩
    · show (s.pc + 2).toNat ≤ 0x10FE
      bv_omega
    · cases hrun.symm.trans hr
  · exact he ▸ h.raise _ _ _

/-- A fresh machine has the invariant, whatever canonical memory it is loaded with (R30). -/
theorem inv_fresh (params : Params) {mem : Memory} (hm : mem.wf) : (State.fresh params mem).Inv where
  memory := hm
  stackPointer := Nat.zero_le 16
  returnAddresses := fun k hk => absurd hk (Nat.not_lt_zero k.val)
  programCounter := show (0x0200 : Word).toNat ≤ 0x10FE by decide
  haltedAt := fun _ hr => nomatch hr

/-- An instruction keeps memory canonical: all it can do to it is write bytes (R40, R47). -/
theorem InstrFrame.memory_wf {i : Instr} {s t : State} (h : InstrFrame i s t) (hm : s.mem.wf) : t.mem.wf := by
  obtain he | ⟨-, bytes, he⟩ := h.memory
  · exact he ▸ hm
  · exact he ▸ wf_writeBytes _ bytes hm

/-- An instruction keeps `SP` within the stack: `CALL` runs below 16 only, `RET` above 0 only (R16). -/
theorem InstrFrame.stackPointer_le {i : Instr} {s t : State} (h : InstrFrame i s t) (hs : s.sp.toNat ≤ 16) :
    t.sp.toNat ≤ 16 := by
  obtain ⟨he, -⟩ | ⟨-, hne, he, -⟩ | ⟨-, -, hne, he, -⟩ := h.callStack <;> rw [he]
  · exact hs
  · bv_omega
  · bv_omega

/-- An instruction that was fetched keeps the stacked return addresses below `0x0FFE`: what `CALL` stacks is its own
address (R102, R103). -/
theorem InstrFrame.returnAddresses_le {i : Instr} {s t : State} (h : InstrFrame i s t) (hi : s.Inv)
    (hpc : s.pc.toNat ≤ 0x0FFE) (k : Fin 16) (hk : k.val < t.sp.toNat) : t.stack[k].toNat ≤ 0x0FFE := by
  have hle := hi.stackPointer
  obtain ⟨hsp, hst⟩ | ⟨-, hne, hsp, hst⟩ | ⟨-, -, -, hsp, hst⟩ := h.callStack <;> rw [hsp] at hk <;> rw [hst]
  · exact hi.returnAddresses k hk
  · exact hi.returnAddresses k (by bv_omega)
  · rw [getElem_pushPc_stack]
    split
    · exact hpc
    · exact hi.returnAddresses k (by bv_omega)

/-- A completed instruction that was fetched leaves `PC` at most `0x10FE`: `0x0FFF + 0xFF` for the jump with offset, less
for every other way `PC` is set (R14, R15). -/
theorem Completes.pc_le {i : Instr} {s t : State} (hc : Completes s t i) (h : exec i s = .next t) (hi : s.Inv)
    (hrun : s.fault = none) (hpc : s.pc.toNat ≤ 0x0FFE) (hw : i.wellFormed = true) : t.pc.toNat ≤ 0x10FE := by
  have hset := everyWayPcIsSet i s t h hrun
  rw [if_neg (not_not.2 (hc.fault_eq.trans hrun))] at hset
  cases i with
  | jp nnn | call nnn =>
    have : nnn.toNat < 4096 := of_decide_eq_true hw
    rw [hset]; omega
  | jpV0 nnn =>
    have : nnn.toNat < 4096 := of_decide_eq_true hw
    obtain ⟨r, hr, -⟩ := hset
    have := s.v[r].isLt
    omega
  | ret =>
    obtain ⟨hne, -⟩ := hc
    have hle := hi.stackPointer
    have htop : s.sp.toNat = (s.sp.toNat - 1) + 1 := by bv_omega
    have hret := hset ⟨s.sp.toNat - 1, by omega⟩ htop
    have := hi.returnAddresses ⟨s.sp.toNat - 1, by omega⟩ (by simp only; omega)
    omega
  | seImm | sneImm | seReg | sneReg | skp | sknp => obtain he | he := hset <;> rw [he] <;> bv_omega
  | ldVxK x =>
    simp only at hset
    split at hset <;> rw [hset] <;> bv_omega
  | _ => rw [hset]; bv_omega

/-- An instruction that was fetched and decoded keeps the invariant. -/
theorem exec_keeps_inv {i : Instr} {s t : State} (h : exec i s = .next t) (hi : s.Inv) (hrun : s.fault = none)
    (hpc : s.pc.toNat ≤ 0x0FFE) (hw : i.wellFormed = true) : t.Inv := by
  have hf := exec_frame h
  obtain hc | ⟨c, a, -, rfl⟩ := exec_next_cases h
  · exact
      { memory := hf.memory_wf hi.memory
        stackPointer := hf.stackPointer_le hi.stackPointer
        returnAddresses := hf.returnAddresses_le hi hpc
        programCounter := hc.pc_le h hi hrun hpc hw
        haltedAt := fun record hr => nomatch (hc.fault_eq.trans hrun).symm.trans hr }
  · exact hi.raise c _ a

/-- Settles O59, event by event. -/
theorem everyStepKeepsTheInvariant : Obligations.EveryStepKeepsTheInvariant := by
  intro s t hi h
  cases stepped_of_step h with
  | halted event _ => exact (hi.stepEvent event).of_eq rfl
  | badFetch event _ => exact (hi.stepEvent event).raise _ _ _
  | unknown event run fetch => exact (hi.stepEvent event).unknownOpcode run fetch _
  | executed event run fetch decoded answer =>
    exact exec_keeps_inv answer (hi.stepEvent event) run fetch (wellFormed_of_decodeWord decoded)
  | ticked _ => exact hi.popEvent.tick
  | acknowledged _ => exact hi.popEvent.of_eq rfl
  | restarted _ _ => exact (inv_fresh _ (wf_bootMemory _ _)).of_eq rfl

/-- Settles O58: reset is a fresh machine with the memory that lists nothing. -/
theorem invariantAtReset : Obligations.InvariantAtReset := inv_fresh defaultParams wf_nil

end Sys2Proof.Machine
end

section
/-! PROOFS. The keypad inputs, runs of scheduled events, and instructions that read no input. -/

namespace Sys2Proof.Machine

/-! ## Input ports -/

/-- The free inputs of a step agree (R222; log 19). -/
theorem consistent_freeInputs (n : Nat) : (freeInputs n).consistent :=
  ⟨chooseKey_eq_none, fun _ hk => chooseKey_down hk⟩

/-- A free event supplies inputs that agree, if it supplies any (R222; log 3). -/
theorem consistent_freeEvent (n : Nat) : (freeEvent n).consistent := by
  obtain he | he | he | he := freeEvent_cases n <;> rw [he]
  · exact consistent_freeInputs n
  all_goals trivial

/-- The ports and the schedule are all that consistency reads. -/
theorem State.inputsConsistent.of_eq {s t : State} (h : s.inputsConsistent) (hi : t.inputs = s.inputs)
    (hs : t.schedule = s.schedule) : t.inputsConsistent := by
  unfold State.inputsConsistent
  rw [hi, hs]
  exact h

/-- Where all scheduled events are consistent, so is the next one, scheduled or free. -/
theorem State.inputsConsistent.nextEvent {s : State} (h : s.inputsConsistent) : s.nextEvent.consistent := by
  cases hs : s.schedule with
  | nil => exact nextEvent_of_nil hs ▸ consistent_freeEvent s.drawn
  | cons e rest => exact nextEvent_of_cons hs ▸ h.2 e (hs ▸ List.mem_cons_self)

/-- Taking an event off leaves consistent ports and events. -/
theorem State.inputsConsistent.popEvent {s : State} (h : s.inputsConsistent) : s.popEvent.inputsConsistent :=
  ⟨(popEvent_inputs s).symm ▸ h.1, fun e he => h.2 e (mem_popEvent_schedule he)⟩

/-- A step event puts consistent inputs at the ports. -/
theorem State.inputsConsistent.stepEvent {s u : State} (h : s.inputsConsistent) (hu : StepEvent s u) :
    u.inputsConsistent := by
  obtain ⟨p, hp, rfl⟩ := hu
  have hnext := h.nextEvent
  rw [hp] at hnext
  exact ⟨hnext, h.popEvent.2⟩

/-- An unknown opcode moves neither ports nor schedule (R202, R206). -/
theorem unknownOpcode_ports (s : State) (w : Word) :
    (s.unknownOpcode w).inputs = s.inputs ∧ (s.unknownOpcode w).schedule = s.schedule := by
  obtain ⟨-, he⟩ | ⟨-, he⟩ := unknownOpcode_cases s w <;> rw [he] <;> exact ⟨rfl, rfl⟩

/-- A tick moves neither ports nor schedule (R220). -/
theorem tick_ports (s : State) : s.tick.inputs = s.inputs ∧ s.tick.schedule = s.schedule := by
  unfold State.tick
  split <;> exact ⟨rfl, rfl⟩

/-- The ports of a fresh machine agree: no key is down and none is named (log 36). -/
theorem consistent_fresh_inputs (params : Params) (mem : Memory) : (State.fresh params mem).inputs.consistent :=
  ⟨by simp [State.fresh], fun _ hk => nomatch hk⟩

/-- Settles O60, event by event: only a step event writes the ports, and only `popEvent` moves the schedule. -/
theorem keypadInputsStayConsistent : Obligations.KeypadInputsStayConsistent := by
  refine ⟨⟨consistent_fresh_inputs _ _, fun e he => nomatch he⟩, fun s t hs h => ?_⟩
  cases stepped_of_step h with
  | halted event _ => exact (hs.stepEvent event).of_eq rfl rfl
  | badFetch event _ => exact (hs.stepEvent event).of_eq rfl rfl
  | unknown event _ _ =>
    obtain ⟨hi, hsched⟩ := unknownOpcode_ports _ _
    exact (hs.stepEvent event).of_eq hi hsched
  | executed event _ _ _ answer =>
    exact (hs.stepEvent event).of_eq (exec_frame answer).inputs (exec_frame answer).schedule
  | ticked _ =>
    obtain ⟨hi, hsched⟩ := tick_ports s.popEvent
    exact hs.popEvent.of_eq hi hsched
  | acknowledged _ => exact hs.popEvent.of_eq rfl rfl
  | @restarted boot _ _ =>
    exact ⟨consistent_fresh_inputs boot.params (bootMemory boot.font.toList boot.program), hs.popEvent.2⟩

/-! ## Runs of scheduled events -/

/-- A run of one event more, when the first one answers a state. -/
theorem run_succ {s t : State} (n : Nat) (h : step s = .next t) : core.run (n + 1) s = core.run n t := by
  simp only [Host.Core.run]
  rw [show core.step s = .next t from h]

/-- A scheduled tick of a running machine: both timers count down (R220). -/
theorem step_of_scheduled_tick {s : State} {rest : List Event} (hrun : s.fault = none)
    (h : s.schedule = .tick :: rest) :
    step s = .next { s with dt := countDown s.dt, st := countDown s.st, schedule := rest } := by
  have hturn : takeTurn s = .over (.next s.popEvent.tick) := by rw [takeTurn, nextEvent_of_cons h]
  have htick := tick_of_running ((popEvent_fault s).trans hrun)
  rw [step_of_over hturn, htick, popEvent_of_cons h]

/-- Settles O38, by induction on the number of ticks. -/
theorem ticksRunATimerDownToZero : Obligations.TicksRunATimerDownToZero := by
  intro n
  induction n with
  | zero =>
    intro s rest _ hs
    exact ⟨s, rfl, rfl, rfl, by rw [← show s.schedule = rest from hs]⟩
  | succ n ih =>
    intro s rest hrun hs
    obtain ⟨t, ht, hdt, hst, hframe⟩ :=
      ih { s with dt := countDown s.dt, st := countDown s.st, schedule := List.replicate n .tick ++ rest } rest hrun rfl
    simp only [toNat_countDown] at hdt hst
    exact ⟨t, (run_succ n (step_of_scheduled_tick hrun hs)).trans ht, by omega, by omega, hframe⟩

/-- The word at `PC` is the word the step fetches (R44, R55). -/
theorem fetchedWord_of_wordAtPc {s : State} {w : Word} (h : WordAtPc s w) : s.fetchedWord = w :=
  BitVec.eq_of_toNat_eq ((toNat_joinBytes _ _).trans h.2.symm)

/-- A running machine with an instruction at `PC` comes to that instruction (R44, R64). -/
theorem frontEnd_of_wordAtPc {s : State} {w : Word} {i : Instr} (hrun : s.fault = none) (hw : WordAtPc s w)
    (hd : decodeWord w = some i) : frontEnd s = .run i s := by
  have hb : boundsFault s.pc 2 = none := boundsFault_eq_none.2 (.inr (by have := hw.1; omega))
  have hd' : decodeWord s.fetchedWord = some i := fetchedWord_of_wordAtPc hw ▸ hd
  simp only [frontEnd, hrun, hb, hd']

/-- A step event of a running machine with an instruction at `PC` is that instruction's meaning (R44, R64). -/
theorem step_of_wordAtPc {s u : State} {w : Word} {i : Instr} (hu : StepEvent s u) (hrun : u.fault = none)
    (hw : WordAtPc u w) (hd : decodeWord w = some i) : step s = exec i u :=
  step_of_run ((takeTurn_of_stepEvent hu).trans (frontEnd_of_wordAtPc hrun hw hd))

/-- With no key down `LD Vx,K` leaves the state and reports that it waits (R173). -/
theorem exec_ldVxK_of_no_key {x : Reg} {s : State} (h : s.inputs.anyKey = none) :
    exec (.ldVxK x) s = .next { s with result := some .awaitingInput } := by
  simp only [exec, execLdVxK, h]

/-- A scheduled step at `LD Vx,K` with no key down: the event is taken off and the step waits (R173). -/
theorem step_of_wait {x : Reg} {w : Word} {p : StepInputs} {rest : List Event} {s : State} (hrun : s.fault = none)
    (hw : WordAtPc s w) (hd : decodeWord w = some (.ldVxK x)) (hp : p.anyKey = none)
    (hs : s.schedule = .step p :: rest) :
    step s = .next { s with schedule := rest, inputs := p, result := some .awaitingInput } := by
  have hu : StepEvent s { s with schedule := rest, inputs := p } :=
    ⟨p, nextEvent_of_cons hs, by rw [popEvent_of_cons hs]; rfl⟩
  exact (step_of_wordAtPc hu hrun hw hd).trans (exec_ldVxK_of_no_key hp)

/-- Settles O31, by induction on the waiting steps. -/
theorem getKeyStallsWhileNoKeyIsDown : Obligations.GetKeyStallsWhileNoKeyIsDown := by
  intro x w waits
  induction waits with
  | nil =>
    intro s _ _ _ _ hs
    exact ⟨s, rfl, by rw [← show s.schedule = [] from hs]⟩
  | cons p waits ih =>
    intro s hrun hw hd hp hs
    obtain ⟨hp, hps⟩ := List.forall_mem_cons.1 hp
    obtain ⟨t, ht, hframe⟩ :=
      ih { s with schedule := waits.map .step, inputs := p, result := some .awaitingInput } hrun hw hd hps rfl
    exact ⟨t, (run_succ waits.length (step_of_wait hrun hw hd hp hs)).trans ht, hframe⟩

/-! ## Instructions that read no input -/

/-- What the bounds check does it does for every input. -/
theorem withBounds_present (i : Instr) (count : Nat) (s effect : State) (p : StepInputs) :
    withBounds i count (s.present p) (effect.present p) = (withBounds i count s effect).present p := by
  unfold withBounds
  rw [present_i]
  split <;> rfl

/-- An instruction that reads no input does the same whatever the inputs at the ports are (R31). -/
theorem exec_present {i : Instr} {s t : State} (p : StepInputs) (hi : ReadsInput i = false)
    (h : exec i s = .next t) : exec i (s.present p) = .next (t.present p) := by
  cases i with
  | skp | sknp | ldVxK | rnd => cases hi
  | call nnn =>
    simp only [exec, execCall, present_sp] at h ⊢
    split at h <;> cases h
    · exact if_pos ‹_›
    · exact if_neg ‹_›
  | ret =>
    simp only [exec, execRet, present_sp] at h ⊢
    split at h <;> cases h
    · exact if_pos ‹_›
    · exact if_neg ‹_›
  | ldB | stRegs | ldRegs | drw => cases h; rw [← withBounds_present]; rfl
  | addI x =>
    cases h
    cases hq : s.params.qAddiVf <;> simp only [exec, execAddI, present_params, hq] <;> rfl
  | _ => cases h; rfl

/-- Settles O56: other inputs at the ports are another `present`. -/
theorem otherInstructionsIgnoreTheInputs : Obligations.OtherInstructionsIgnoreTheInputs :=
  fun _ _ _ p hi h => exec_present p hi h

end Sys2Proof.Machine
end

section
/-! PROOFS. The obligations about memory and the fetch (`20_memory.md`): what a step event sees of the state, which
word it fetches, where a store lands, and that the canonical form determines the data. -/

namespace Sys2Proof.Machine

/-! ## The fetch -/

/-- A step event finds `FAULT` as the state before it has it (R31, R247). -/
theorem StepEvent.fault_eq {s t : State} (h : StepEvent s t) : t.fault = s.fault := by rw [stepEvent_frame h]

/-- A step event fetches at the `PC` of the state before it (R31, R247). -/
theorem StepEvent.pc_eq {s t : State} (h : StepEvent s t) : t.pc = s.pc := by rw [stepEvent_frame h]

/-- A step event fetches from the memory of the state before it (R31, R247). -/
theorem StepEvent.mem_eq {s t : State} (h : StepEvent s t) : t.mem = s.mem := by rw [stepEvent_frame h]

/-- The word at `PC` is the same when the step event has come (R44). -/
theorem WordAtPc.stepEvent {s t : State} {w : Word} (hw : WordAtPc s w) (h : StepEvent s t) : WordAtPc t w := by
  rwa [WordAtPc, h.pc_eq, h.mem_eq]

/-- With `PC` at most `0x0FFE` the word at `PC` is the one the two bytes there form (R44, R55). -/
theorem wordAtPc_fetchedWord {s : State} (h : s.pc.toNat ≤ 0x0FFE) : WordAtPc s s.fetchedWord :=
  ⟨h, toNat_joinBytes _ _⟩

/-- Two bytes decode to the instruction that their word decodes to (R55, R60). -/
theorem decodeWord_of_decodeBytes {high low : Byte} {i : Instr} (h : decodeBytes [high, low] = .ok (i, [])) :
    decodeWord (joinBytes high low) = some i := by
  cases hd : decodeWord (joinBytes high low) with
  | none => simp [decodeBytes, hd] at h
  | some j => simpa [decodeBytes, hd] using h

/-- Settles O34: the word at `PC` is still there when the step event fetches it. -/
theorem fetchIsBigEndian : Obligations.FetchIsBigEndian :=
  fun _ _ _ _ ht hrun hw hd => step_of_wordAtPc ht (ht.fault_eq.trans hrun) (hw.stepEvent ht) hd

/-- Settles O33: the case of O34 in which the word is given by its bytes. -/
theorem stepRunsTheDecodedInstruction : Obligations.StepRunsTheDecodedInstruction :=
  fun s t i ht hrun hpc hd =>
    fetchIsBigEndian s t s.fetchedWord i ht hrun (wordAtPc_fetchedWord hpc) (decodeWord_of_decodeBytes hd)

/-- A running machine with `PC` above `0x0FFE` raises at the lowest bad address, without an opcode (R44, R203). -/
theorem frontEnd_of_pc_outside {s : State} (hrun : s.fault = none) (hpc : 0x0FFE < s.pc.toNat) :
    ∃ a : Word, a.toNat = max s.pc.toNat 0x1000 ∧ frontEnd s = .over (.next (s.raise .outOfBounds none a)) := by
  cases hb : boundsFault s.pc 2 with
  | none => have := pc_le_of_boundsFault_none hb; omega
  | some a => exact ⟨a, (boundsFault_eq_some.1 hb).2.2, by simp only [frontEnd, hrun, hb]⟩

/-- Settles O35: the front of the step raises before anything is decoded. -/
theorem fetchOutsideMemoryFaults : Obligations.FetchOutsideMemoryFaults := by
  intro s t ht hrun hpc
  rw [← ht.pc_eq] at hpc ⊢
  obtain ⟨a, ha, hfront⟩ := frontEnd_of_pc_outside (ht.fault_eq.trans hrun) hpc
  exact ⟨_, a, step_of_over ((takeTurn_of_stepEvent ht).trans hfront), ha, rfl⟩

/-! ## Stores -/

/-- Only the written bytes read differently after a sequence of writes (R43, R47). -/
theorem span_of_read_writeBytes_ne {m : Memory} {a a' : Nat} {bytes : List Byte}
    (h : (m.writeBytes a bytes).read a' ≠ m.read a') : a ≤ a' ∧ a' < a + bytes.length := by
  by_contra hout
  exact h (read_writeBytes_of_outside m a a' bytes (by omega))

/-- What changes memory is an `LD B,Vx` or an `LD [I],Vx` that completed, with the bytes it stores (R47, R144, R145). -/
theorem stores_of_mem_ne {i : Instr} {s t : State} (h : exec i s = .next t) (hne : t.mem ≠ s.mem) :
    (∃ x, i = .ldB x ∧ s.i.toNat + 3 ≤ 4096 ∧ t.mem = s.mem.writeBytes s.i.toNat (bcdDigits (s.getV x))) ∨
    ∃ x, i = .stRegs x ∧ s.i.toNat + (x.val + 1) ≤ 4096 ∧ t.mem = s.mem.writeBytes s.i.toNat (regsUpTo x s) := by
  obtain hmem | ⟨⟨x, hi⟩, -⟩ := (exec_frame h).memory
  · exact absurd hmem hne
  obtain hc | ⟨c, a, -, rfl⟩ := exec_next_cases h
  · obtain rfl | rfl := hi
    · obtain ⟨hb, rfl⟩ := hc
      exact .inl ⟨x, rfl, hb, rfl⟩
    · obtain ⟨hb, rfl⟩ := hc
      exact .inr ⟨x, rfl, hb, rfl⟩
  · exact absurd (raise_mem s c _ a) hne

/-- Settles O52: a changed byte is one of those that one of the two stores writes. -/
theorem onlyStoresWriteMemory : Obligations.OnlyStoresWriteMemory := by
  intro i s t a h hne
  obtain ⟨x, hi, hb, hm⟩ | ⟨x, hi, hb, hm⟩ := stores_of_mem_ne h (fun e => hne (by rw [e]))
  · obtain ⟨hlo, hhi⟩ := span_of_read_writeBytes_ne (hm ▸ hne)
    rw [length_bcdDigits] at hhi
    exact ⟨hlo, by omega, .inl ⟨x, hi, by omega⟩⟩
  · obtain ⟨hlo, hhi⟩ := span_of_read_writeBytes_ne (hm ▸ hne)
    rw [length_regsUpTo] at hhi
    exact ⟨hlo, by omega, .inr ⟨x, hi, by omega⟩⟩

/-- A bulk store inside memory completes (R145). -/
theorem exec_stRegs_of_inside {x : Reg} {s : State} (h : s.i.toNat + x.val < 4096) :
    exec (.stRegs x) s =
      .next { s with mem := s.mem.writeBytes s.i.toNat (regsUpTo x s), i := indexAfterBulk x s }.finish :=
  congrArg _ (withBounds_of_inside (by omega))

/-- After a bulk store of `V[0]` to `V[x]` the byte at `I + k` is `V[k]` (R145). -/
theorem read_writeBytes_regsUpTo {x k : Reg} {s : State} (hk : k.val ≤ x.val) (h : s.i.toNat + x.val < 4096) :
    (s.mem.writeBytes s.i.toNat (regsUpTo x s)).read (s.i.toNat + k.val) = s.v[k] := by
  have hlen : k.val < (regsUpTo x s).length := by rw [length_regsUpTo]; omega
  rw [read_writeBytes_of_inside _ _ _ _ hlen (by rw [length_regsUpTo]; omega), getElem_regsUpTo]
  rfl

/-- Settles O25: the store leaves `PC` at its own first byte, so that the next step fetches `V[0]` and `V[1]`. -/
theorem storeIntoTheInstructionStreamIsFetched : Obligations.StoreIntoTheInstructionStreamIsFetched := by
  intro x i s t u hrun hx hi hin hd h hu
  cases (exec_stRegs_of_inside hin).symm.trans h
  refine stepRunsTheDecodedInstruction _ u i hu hrun ?_ ?_
  · rw [finish_eq, finishAt_pc, ← hi]
    omega
  · have h0 := read_writeBytes_regsUpTo (k := 0) x.val.zero_le hin
    have h1 := read_writeBytes_regsUpTo (k := 1) hx hin
    rw [finish_eq, finishAt_pc, finishAt_mem, ← hi]
    exact (congrArg₂ (fun high low => decodeBytes [high, low]) h0 h1).trans hd

/-! ## The canonical form -/

/-- A cell of a memory with rising addresses is what a read of its address gives (R42). -/
theorem read_of_mem {m : Memory} {a : Nat} {b : Byte} (hp : m.Pairwise (fun p q => p.1 < q.1)) (h : (a, b) ∈ m) :
    m.read a = b := by
  induction m with
  | nil => cases h
  | cons c rest ih =>
    obtain ⟨k, c⟩ := c
    obtain ⟨hk, hp⟩ := List.pairwise_cons.1 hp
    rw [Memory.read]
    obtain he | h := List.mem_cons.1 h
    · cases he
      exact if_pos rfl
    · rw [if_neg (hk _ h).ne, ih hp h]

/-- An address that does not read as its reset contents is listed, with the byte it reads as (R42). -/
theorem mem_of_read_ne {m : Memory} {a : Nat} (h : m.read a ≠ Memory.unlisted a) : (a, m.read a) ∈ m := by
  induction m with
  | nil => exact absurd rfl h
  | cons c rest ih =>
    obtain ⟨k, c⟩ := c
    rw [Memory.read] at h ⊢
    split at h
    · next hk => rw [if_pos hk, hk]; exact List.mem_cons_self
    · next hk => rw [if_neg hk]; exact List.mem_cons_of_mem _ (ih h)

/-- The cells of a canonical memory, by what it reads: those that differ from their reset contents (log 6). -/
theorem Memory.wf.mem_iff {m : Memory} (h : m.wf) (c : Host.Cell) :
    c ∈ m ↔ m.read c.1 = c.2 ∧ c.2 ≠ Memory.unlisted c.1 := by
  obtain ⟨hp, hc⟩ := h
  constructor
  · exact fun hm => ⟨read_of_mem hp hm, (hc c hm).2⟩
  · rintro ⟨hr, hne⟩
    rw [← hr] at hne
    simpa only [hr] using mem_of_read_ne hne

/-- Settles O57: the reads decide the cells, and a list with rising addresses is determined by its cells. -/
theorem canonicalMemoriesAreEqualData : Obligations.CanonicalMemoriesAreEqualData := by
  intro m m' hm hm' hread
  have hcells (c : Host.Cell) : c ∈ m ↔ c ∈ m' := by rw [hm.mem_iff, hm'.mem_iff, hread]
  have nodup {l : Memory} (hl : l.wf) : l.Nodup := hl.1.imp fun hlt he => hlt.ne (congrArg Prod.fst he)
  exact ((List.perm_ext_iff_of_nodup (nodup hm) (nodup hm')).2 hcells).eq_of_pairwise
    (fun _ _ _ _ hlt hgt => absurd hlt hgt.asymm) hm.1 hm'.1

end Sys2Proof.Machine
end

section
/-! PROOFS. The obligations about the encoding (`30_encoding.md`): the decoder against the encoder, the rows of the
opcode table and the set of unknown words. -/

namespace Sys2Proof

open Machine

/-! ## The operands read back from the words the encoder forms -/

@[simp] theorem fieldX_wordX {f low : Nat} {x : Reg} (hf : f < 16) (hl : low < 256) : fieldX (wordX f x low) = x := by
  simp [fieldX, field_wordX hf hl]

@[simp] theorem fieldNn_wordX {f : Nat} {x : Reg} {nn : Byte} (hf : f < 16) : fieldNn (wordX f x nn.toNat) = nn := by
  simp [fieldNn, field_wordX hf nn.isLt]

@[simp] theorem fieldNnn_wordNnn {f : Nat} {a : Word} (hf : f < 16) (ha : a.toNat < 4096) :
    fieldNnn (wordNnn f a) = a := by
  simp [fieldNnn, field_wordNnn hf ha]

@[simp] theorem fieldX_nibbles {f n : Nat} {x y : Reg} (hf : f < 16) (hn : n < 16) :
    fieldX (nibbles f x.val y.val n) = x := by
  simp [fieldX, field_nibbles hf x.isLt y.isLt hn]

@[simp] theorem fieldY_nibbles {f n : Nat} {x y : Reg} (hf : f < 16) (hn : n < 16) :
    fieldY (nibbles f x.val y.val n) = y := by
  simp [fieldY, field_nibbles hf x.isLt y.isLt hn]

/-! ## Decoding what the encoder gives, format by format (R61, R64) -/

/-- The word of a well-formed instruction decodes to it (R62, R64). -/
theorem decodeWord_encode {i : Instr} (h : i.wellFormed = true) : decodeWord (encode i) = some i := by
  cases i with
  | cls | ret => rfl
  | jp a | call a | ldI a | jpV0 a =>
    have ha : a.toNat < 4096 := of_decide_eq_true h
    simp [encode, decodeWord, field_wordNnn, ha]
  | seImm x nn | sneImm x nn | ldImm x nn | addImm x nn | rnd x nn =>
    simp [encode, decodeWord, field_wordX, nn.isLt]
  | seReg x y | sneReg x y => simp [encode, decodeWord, field_nibbles]
  | drw x y n =>
    have hn : n < 16 := of_decide_eq_true h
    simp [encode, decodeWord, field_nibbles, hn]
  | ldReg | orReg | andReg | xorReg | addReg | subReg | shr | subnReg | shl =>
    simp [encode, decodeWord, decodeFamily8, field_nibbles]
  | skp | sknp => simp [encode, decodeWord, decodeFamilyE, field_wordX]
  | ldVxDt | ldVxK | ldDtVx | ldStVx | addI | ldF | ldB | stRegs | ldRegs =>
    simp [encode, decodeWord, decodeFamilyF, field_wordX]

/-- Settles O1: the two bytes join to the instruction's word, and that word decodes to the instruction. -/
theorem decodeOfEncodeIsTheInstruction : Obligations.DecodeOfEncodeIsTheInstruction := by
  intro i rest h
  simp [encodeBytes, decodeBytes, joinBytes_highByte_lowByte, decodeWord_encode h]

/-- Settles O5: the low nibble is no operand of the two families. -/
theorem lowNibbleOfFamilies5And9Ignored : Obligations.LowNibbleOfFamilies5And9Ignored := by
  intro x y n hn
  constructor <;> simp [decodeWord, field_nibbles, hn]

/-- Settles O6, by evaluation of the seven words. -/
theorem sampleWordsDecode : Obligations.SampleWordsDecode := by
  unfold Obligations.SampleWordsDecode
  decide

/-! ## A word from its fields, format by format (R61) -/

theorem eq_wordNnn_of_family {w : Word} {f : Nat} (hf : field w 15 12 = f) : w = wordNnn f (fieldNnn w) := by
  subst hf
  apply BitVec.eq_of_toNat_eq
  simp only [wordNnn, fieldNnn, field, BitVec.toNat_ofNat]; omega

theorem eq_wordX_of_fields {w : Word} {f low : Nat} (hf : field w 15 12 = f) (hl : field w 7 0 = low) :
    w = wordX f (fieldX w) low := by
  subst hf hl
  apply BitVec.eq_of_toNat_eq
  simp only [wordX, fieldX, field, BitVec.toNat_ofNat, Fin.val_ofNat]; omega

theorem eq_wordX_of_family {w : Word} {f : Nat} (hf : field w 15 12 = f) :
    w = wordX f (fieldX w) (fieldNn w).toNat := by
  refine eq_wordX_of_fields hf ?_
  simp only [fieldNn, field, BitVec.toNat_ofNat]; omega

theorem eq_nibbles_of_fields {w : Word} {f n : Nat} (hf : field w 15 12 = f) (hn : field w 3 0 = n) :
    w = nibbles f (fieldX w).val (fieldY w).val n := by
  subst hf hn
  apply BitVec.eq_of_toNat_eq
  simp only [nibbles, fieldX, fieldY, field, BitVec.toNat_ofNat, Fin.val_ofNat]; omega

/-- The mask of all but the low nibble, as shifts. -/
theorem and_FFF0 (w : Word) : w &&& (0xFFF0 : Word) = (w >>> 4) <<< 4 := by
  apply BitVec.eq_of_getLsbD_eq; intro i hi
  interval_cases i <;> simp

/-- A word without its low nibble is the word of its other fields with the canonical low nibble 0 (R69). -/
theorem and_FFF0_eq_nibbles {w : Word} {f : Nat} (hf : field w 15 12 = f) :
    w &&& (0xFFF0 : Word) = nibbles f (fieldX w).val (fieldY w).val 0 := by
  subst hf
  apply BitVec.eq_of_toNat_eq
  simp only [and_FFF0, nibbles, fieldX, fieldY, field, BitVec.toNat_ofNat, BitVec.toNat_shiftLeft,
    BitVec.toNat_ushiftRight, Nat.shiftLeft_eq, Nat.shiftRight_eq_div_pow, Fin.val_ofNat]
  omega

/-! ## What decodes is its instruction's word and selects its row (R64, R69) -/

/-- A word is the instruction's own, or its own but for the low nibble that `5xy_` and `9xy_` ignore (R64, R69). -/
def IsWordOf (w : Word) (i : Instr) : Prop :=
  w = encode i ∨ ((∃ x y, i = .seReg x y ∨ i = .sneReg x y) ∧ w &&& (0xFFF0 : Word) = encode i)

theorem eq_encode_of_decodeFamily0 {w : Word} {i : Instr} (h : decodeFamily0 w = some i) : w = encode i := by
  unfold decodeFamily0 at h
  split at h <;> cases h <;> exact BitVec.eq_of_toNat_eq ‹_›

theorem eq_encode_of_decodeFamily8 {w : Word} {i : Instr} (hf : field w 15 12 = 0x8) (h : decodeFamily8 w = some i) :
    w = encode i := by
  unfold decodeFamily8 at h
  split at h <;> cases h <;> exact eq_nibbles_of_fields hf ‹_›

theorem eq_encode_of_decodeFamilyE {w : Word} {i : Instr} (hf : field w 15 12 = 0xE) (h : decodeFamilyE w = some i) :
    w = encode i := by
  unfold decodeFamilyE at h
  split at h <;> cases h <;> exact eq_wordX_of_fields hf ‹_›

theorem eq_encode_of_decodeFamilyF {w : Word} {i : Instr} (hf : field w 15 12 = 0xF) (h : decodeFamilyF w = some i) :
    w = encode i := by
  unfold decodeFamilyF at h
  split at h <;> cases h <;> exact eq_wordX_of_fields hf ‹_›

theorem isWordOf_of_decodeWord {w : Word} {i : Instr} (h : decodeWord w = some i) : IsWordOf w i := by
  unfold decodeWord at h
  split at h
  case h_1 => exact .inl (eq_encode_of_decodeFamily0 h)
  case h_9 hf => exact .inl (eq_encode_of_decodeFamily8 hf h)
  case h_15 hf => exact .inl (eq_encode_of_decodeFamilyE hf h)
  case h_16 hf => exact .inl (eq_encode_of_decodeFamilyF hf h)
  case h_17 => cases h
  all_goals cases h
  case h_2 hf | h_3 hf | h_11 hf | h_12 hf => exact .inl (eq_wordNnn_of_family hf)
  case h_4 hf | h_5 hf | h_7 hf | h_8 hf | h_13 hf => exact .inl (eq_wordX_of_family hf)
  case h_14 hf => exact .inl (eq_nibbles_of_fields hf rfl)
  case h_6 hf => exact .inr ⟨⟨_, _, .inl rfl⟩, and_FFF0_eq_nibbles hf⟩
  case h_10 hf => exact .inr ⟨⟨_, _, .inr rfl⟩, and_FFF0_eq_nibbles hf⟩

open Laws.EncodeMatchesRow in
/-- The word the encoder gives a well-formed instruction selects that instruction's row (R64). -/
theorem encode_selects_row {i : Instr} (h : i.wellFormed = true) : encode i &&& (tableRow i).1 = (tableRow i).2 := by
  revert h
  cases i
  exacts [cls, ret, jp _, call _, seImm _ _, sneImm _ _, seReg _ _, ldImm _ _, addImm _ _, ldReg _ _, orReg _ _,
    andReg _ _, xorReg _ _, addReg _ _, subReg _ _, shr _ _, subnReg _ _, shl _ _, sneReg _ _, ldI _, jpV0 _, rnd _ _,
    drw _ _ _, skp _, sknp _, ldVxDt _, ldVxK _, ldDtVx _, ldStVx _, addI _, ldF _, ldB _, stRegs _, ldRegs _]

/-- The masks of `5xy_` and `9xy_` do not see the ignored nibble (R64, R69). -/
theorem IsWordOf.and_mask {w : Word} {i : Instr} (h : IsWordOf w i) :
    w &&& (tableRow i).1 = encode i &&& (tableRow i).1 := by
  obtain rfl | ⟨⟨x, y, rfl | rfl⟩, hw⟩ := h
  · rfl
  all_goals
    rw [← hw, BitVec.and_assoc]
    exact congrArg (w &&& ·) (show (0xF000 : Word) = 0xFFF0 &&& 0xF000 by decide)

/-- A word that decodes selects its instruction's row (R64). -/
theorem selects_row_of_decodeWord {w : Word} {i : Instr} (h : decodeWord w = some i) :
    w &&& (tableRow i).1 = (tableRow i).2 :=
  (isWordOf_of_decodeWord h).and_mask.trans (encode_selects_row (wellFormed_of_decodeWord h))

/-- Settles O2: the three parts, each for every word that decodes. -/
theorem decodedWordIsItsEncoding : Obligations.DecodedWordIsItsEncoding :=
  fun _ _ h => ⟨wellFormed_of_decodeWord h, selects_row_of_decodeWord h, isWordOf_of_decodeWord h⟩

/-! ## A word that selects a row decodes (R64, R70) -/

/-- A word of the rows under mask `0xF000`: its family. -/
theorem family_of_and_F000 {w m : Word} (h : w &&& (0xF000 : Word) = m) : field w 15 12 = m.toNat / 4096 := by
  rw [← h, toNat_and_F000, field]; omega

/-- A word of the rows under mask `0xF00F`: its family and its low nibble. -/
theorem fields_of_and_F00F {w m : Word} (h : w &&& (0xF00F : Word) = m) :
    field w 15 12 = m.toNat / 4096 ∧ field w 3 0 = m.toNat % 16 := by
  rw [← h, toNat_and_F00F]; simp only [field]; omega

/-- A word of the rows under mask `0xF0FF`: its family and its low byte. -/
theorem fields_of_and_F0FF {w m : Word} (h : w &&& (0xF0FF : Word) = m) :
    field w 15 12 = m.toNat / 4096 ∧ field w 7 0 = m.toNat % 256 := by
  rw [← h, toNat_and_F0FF]; simp only [field]; omega

/-- A word that selects a row of R64 is no unknown opcode (R70). -/
theorem decodeWord_ne_none_of_selects_row {w : Word} {i : Instr} (h : w &&& (tableRow i).1 = (tableRow i).2) :
    decodeWord w ≠ none := by
  cases i with
  | cls | ret =>
    rw [show w = _ from (BitVec.and_allOnes (x := w)).symm.trans h]
    decide
  | jp | call | seImm | sneImm | seReg | ldImm | addImm | sneReg | ldI | jpV0 | rnd | drw =>
    have hf := family_of_and_F000 h
    simp [decodeWord, hf, tableRow]
  | ldReg | orReg | andReg | xorReg | addReg | subReg | shr | subnReg | shl =>
    obtain ⟨hf, hn⟩ := fields_of_and_F00F h
    simp [decodeWord, decodeFamily8, hf, hn, tableRow]
  | skp | sknp =>
    obtain ⟨hf, hl⟩ := fields_of_and_F0FF h
    simp [decodeWord, decodeFamilyE, hf, hl, tableRow]
  | ldVxDt | ldVxK | ldDtVx | ldStVx | addI | ldF | ldB | stRegs | ldRegs =>
    obtain ⟨hf, hl⟩ := fields_of_and_F0FF h
    simp [decodeWord, decodeFamilyF, hf, hl, tableRow]

/-- Settles O3: what decodes selects its instruction's row, and what selects a row decodes. -/
theorem unknownExactlyWhenNoRowMatches : Obligations.UnknownExactlyWhenNoRowMatches := by
  intro w
  constructor
  · exact fun hnone i hrow => decodeWord_ne_none_of_selects_row hrow hnone
  · exact fun hrows => Option.eq_none_iff_forall_ne_some.2 fun i h => hrows i (selects_row_of_decodeWord h)

/-! ## The unknown words of each family (R65 to R68) -/

theorem decodeFamily0_eq_none_iff {w : Word} : decodeFamily0 w = none ↔ w ≠ 0x00E0 ∧ w ≠ 0x00EE := by
  simp only [ne_eq, ← BitVec.toNat_inj]
  unfold decodeFamily0
  split <;> simp_all

theorem decodeFamily8_eq_none_iff {w : Word} :
    decodeFamily8 w = none ↔ w.toNat % 16 ∈ [0x8, 0x9, 0xA, 0xB, 0xC, 0xD, 0xF] := by
  have hn : field w 3 0 = w.toNat % 16 := by simp [field]
  unfold decodeFamily8
  rw [hn]
  split
  case h_10 =>
    simp only [imp_false, true_iff, List.mem_cons, List.not_mem_nil, or_false] at *
    omega
  all_goals simp [*]

theorem decodeFamilyE_eq_none_iff {w : Word} : decodeFamilyE w = none ↔ w.toNat % 256 ∉ [0x9E, 0xA1] := by
  have hl : field w 7 0 = w.toNat % 256 := by simp [field]
  unfold decodeFamilyE
  rw [hl]
  split <;> simp_all

theorem decodeFamilyF_eq_none_iff {w : Word} :
    decodeFamilyF w = none ↔ w.toNat % 256 ∉ [0x07, 0x0A, 0x15, 0x18, 0x1E, 0x29, 0x33, 0x55, 0x65] := by
  have hl : field w 7 0 = w.toNat % 256 := by simp [field]
  unfold decodeFamilyF
  rw [hl]
  split <;> simp_all

/-- The family of a word is its top nibble (R64). -/
theorem field_family (w : Word) : field w 15 12 = w.toNat / 4096 := by
  simp only [field]; omega

/-- Only the four families with a second level have unknown words (R64, R70). -/
theorem decodeWord_eq_none_iff {w : Word} : decodeWord w = none ↔
    (w.toNat / 4096 = 0x0 ∧ decodeFamily0 w = none) ∨ (w.toNat / 4096 = 0x8 ∧ decodeFamily8 w = none) ∨
    (w.toNat / 4096 = 0xE ∧ decodeFamilyE w = none) ∨ (w.toNat / 4096 = 0xF ∧ decodeFamilyF w = none) := by
  unfold decodeWord
  rw [field_family]
  split
  case h_17 =>
    have := w.isLt
    simp only [imp_false] at *
    omega
  all_goals simp [*]

/-- Settles O4: the families with a second level, each by its own table. -/
theorem unknownWordsByFamily : Obligations.UnknownWordsByFamily := by
  intro w
  have h0 : w.toNat / 4096 = 0x0 ↔ w.toNat < 0x1000 := by omega
  rw [decodeWord_eq_none_iff, h0, decodeFamily0_eq_none_iff, decodeFamily8_eq_none_iff, decodeFamilyE_eq_none_iff,
    decodeFamilyF_eq_none_iff]

end Sys2Proof
end

section
/-! PROOFS. The obligations about control transfer (`40_control_flow.md`): jumps, `CALL` and `RET`, and the skips on
registers and immediates. -/

namespace Sys2Proof.Machine

/-! ## `CALL` and `RET` -/

/-- With room on the stack `CALL` pushes its own address and jumps (R102). -/
theorem exec_call_of_room {nnn : Word} {s : State} (h : s.sp ≠ 16) :
    exec (.call nnn) s = .next (s.pushPc.finishAt nnn) := if_neg h

/-- With a full stack `CALL` raises (R204). -/
theorem exec_call_of_full {nnn : Word} {s : State} (h : s.sp = 16) :
    exec (.call nnn) s = .next (s.raise .stackOverflow (some (encode (.call nnn))) s.pc) := if_pos h

/-- With an address stacked `RET` pops it and continues two past it (R103). -/
theorem exec_ret_of_stacked {s : State} (h : s.sp ≠ 0) :
    exec .ret s = .next ({ s with sp := s.sp - 1 }.finishAt (s.stackEntry (s.sp - 1).toNat + 2)) := if_neg h

/-- With an empty stack `RET` raises (R205). -/
theorem exec_ret_of_empty {s : State} (h : s.sp = 0) :
    exec .ret s = .next (s.raise .stackUnderflow (some (encode .ret)) s.pc) := if_pos h

/-- `SP` below 16 is not 16 (R16). -/
theorem sp_ne_16_of_lt {s : State} (h : s.sp.toNat < 16) : s.sp ≠ 16 := by bv_omega

/-- After `CALL` the entry at the old `SP` is the address of the call (R102). -/
theorem stackEntry_pushPc_finishAt {s : State} (h : s.sp.toNat < 16) (a : Word) :
    (s.pushPc.finishAt a).stackEntry s.sp.toNat = s.pc :=
  (stackEntry_of_lt _ h).trans ((getElem_pushPc_stack s ⟨_, h⟩).trans (if_pos rfl))

/-- Settles O8: the two cases of `SP`, with the stack after a push. -/
theorem callStacksItsOwnAddress : Obligations.CallStacksItsOwnAddress := by
  intro nnn s
  constructor
  · intro hroom
    have hsp : (s.sp + 1).toNat = s.sp.toNat + 1 := by bv_omega
    exact ⟨_, exec_call_of_room (sp_ne_16_of_lt hroom), getElem_pushPc_stack s, hsp, rfl⟩
  · exact fun hfull => ⟨_, exec_call_of_full hfull, rfl⟩

/-- Settles O9: the two cases of `SP`, with the entry under the top of the stack. -/
theorem returnGoesTwoPastTheStackedAddress : Obligations.ReturnGoesTwoPastTheStackedAddress := by
  intro s
  constructor
  · intro k hk
    have hne : s.sp ≠ 0 := by bv_omega
    have hsp : (s.sp - 1).toNat = k.val := by bv_omega
    exact ⟨_, exec_ret_of_stacked hne, hsp, toNat_returnTarget s k hk, rfl⟩
  · exact fun hempty => ⟨_, exec_ret_of_empty hempty, rfl⟩

/-- Settles O10: the pop undoes the push of `SP`, so that `RET` reads the entry `CALL` wrote. -/
theorem callThenReturnRoundTrip : Obligations.CallThenReturnRoundTrip := by
  intro nnn s t hroom hcall
  cases (exec_call_of_room (sp_ne_16_of_lt hroom)).symm.trans hcall
  have hne : s.sp + 1 ≠ 0 := by bv_omega
  have hback : s.sp + 1 - 1 = s.sp := BitVec.add_sub_cancel _ _
  refine ⟨_, exec_ret_of_stacked hne, ?_, hback, ?_⟩
  · simp only [finishAt_pc, finishAt_sp, pushPc_sp, hback, stackEntry_pushPc_finishAt hroom]
  · simp only [State.finishAt, State.pushPc, hback]

/-! ## Jumps -/

/-- Settles O7: the meaning of `JP` is one write of `PC`. -/
theorem jumpSetsPcExactly : Obligations.JumpSetsPcExactly := fun _ _ => rfl

/-- The third nibble of an address of twelve bits is its top digit (R62, R104). -/
theorem addressX_of_val_eq {nnn : Word} {x : Reg} (hx : x.val = nnn.toNat / 256) : addressX nnn = x := by
  apply Fin.ext
  rw [val_addressX, ← hx, Nat.mod_eq_of_lt x.isLt]

/-- A twelve-bit address and a byte have a sum of 16 bits (R104; log 26). -/
theorem toNat_add_zext16 {nnn : Word} (h : nnn.toNat < 4096) (b : Byte) :
    (nnn + zext16 b).toNat = nnn.toNat + b.toNat := by
  rw [BitVec.toNat_add, toNat_zext16]
  omega

/-- Settles O11: the sum does not wrap, and the offset is of the register the address names or of `V[0]`. -/
theorem jumpWithOffsetAddsTheRegister : Obligations.JumpWithOffsetAddsTheRegister := by
  intro nnn x s hn hx
  have hoffset : jumpOffset nnn s = if s.params.qJumpVx then s.v[x] else s.v[(0 : Reg)] := by
    rw [jumpOffset, addressX_of_val_eq hx]
    rfl
  exact ⟨_, rfl, hoffset ▸ toNat_add_zext16 hn (jumpOffset nnn s), rfl⟩

/-! ## Skips -/

/-- A skip whose test decides `P`: four on if `P` holds, else two on, and nothing else changes (R14). -/
theorem next_finishSkip_of_iff (s : State) {test : Bool} {P : Prop} [Decidable P] (h : test = true ↔ P) :
    (.next (s.finishSkip test) : Answer) =
      .next { s with pc := if P then s.pc + 4 else s.pc + 2, result := some (.progress none) } := by
  simp only [finishSkip_eq, State.finishAt, h]

/-- Settles O12: each of the four tests decides its condition. -/
theorem skipsAdvanceByFourOrTwo : Obligations.SkipsAdvanceByFourOrTwo :=
  fun _ _ _ s =>
    ⟨next_finishSkip_of_iff s beq_iff_eq, next_finishSkip_of_iff s bne_iff_ne,
      next_finishSkip_of_iff s beq_iff_eq, next_finishSkip_of_iff s bne_iff_ne⟩

end Sys2Proof.Machine
end

section
/-! PROOFS. The obligations about register load, arithmetic and logic (`41_register_alu.md`): the two shapes of writing
end, and the values written as bits or as numbers. -/

namespace Sys2Proof.Machine

/-! ## The two ways an instruction writes its result -/

/-- An instruction that writes `V[x]` and completes does nothing else (R10, R14). -/
theorem writesOneRegister_setV_finish (s : State) (x : Reg) (b : Byte) :
    WritesOneRegister s (s.setV x b).finish x b :=
  ⟨getV_setV_same s x b, fun _ hr => getV_setV_ne s b hr, rfl⟩

/-- An instruction that writes `V[x]`, then `VF`, and completes does nothing else (R120; log 16). -/
theorem writesRegisterThenFlag_setVThenFlag_finish (s : State) (x : Reg) (b f : Byte) :
    WritesRegisterThenFlag s (s.setVThenFlag x b f).finish x b f :=
  ⟨getV_setVThenFlag_value s b f, getV_setVThenFlag_flag s x b f,
    fun _ hx hf => (getV_setV_ne _ f hf).trans (getV_setV_ne s b hx), rfl⟩

/-! ## The values written, as numbers -/

/-- The wrapping sum as a number (R122, R127). -/
theorem add_eq_ofNat (a b : Byte) : a + b = BitVec.ofNat 8 ((a.toNat + b.toNat) % 256) := by
  bv_omega

/-- The wrapping difference as a number (R128, R129). -/
theorem sub_eq_ofNat (a b : Byte) : a - b = BitVec.ofNat 8 ((a.toNat + 256 - b.toNat) % 256) := by
  bv_omega

/-- A right shift by one halves (R130). -/
theorem shiftRight_one_eq_ofNat (b : Byte) : b >>> 1 = BitVec.ofNat 8 (b.toNat / 2) := by
  bv_omega

/-- A left shift by one doubles, modulo 256 (R131). -/
theorem shiftLeft_one_eq_ofNat (b : Byte) : b <<< 1 = BitVec.ofNat 8 (2 * b.toNat % 256) := by
  bv_omega

/-! ## The flags written, as numbers -/

/-- The flag of a condition is 1 exactly when it holds (R11). -/
theorem flagByte_decide (p : Prop) [Decidable p] : flagByte (decide p) = if p then 1 else 0 := by
  simp only [flagByte, decide_eq_true_eq]

/-- The flag of a bit is the bit as a number (R11). -/
theorem flagByte_getLsbD (b : Byte) (k : Nat) : flagByte (b.getLsbD k) = BitVec.ofNat 8 (b.toNat / 2 ^ k % 2) := by
  have hbit : ∀ c : Bool, flagByte c = BitVec.ofNat 8 c.toNat := by decide
  rw [hbit, BitVec.getLsbD, Nat.toNat_testBit]

/-- The bit a right shift by one moves out is the remainder by 2 (R130). -/
theorem lowBitFlag_eq_ofNat (b : Byte) : lowBitFlag b = BitVec.ofNat 8 (b.toNat % 2) := by
  rw [lowBitFlag, flagByte_getLsbD, pow_zero, Nat.div_one]

/-- The bit a left shift by one moves out is the quotient by 128 (R131). -/
theorem highBitFlag_eq_ofNat (b : Byte) : highBitFlag b = BitVec.ofNat 8 (b.toNat / 128) := by
  have hone : b.toNat / 128 < 2 := by omega
  rw [highBitFlag, flagByte_getLsbD, show 2 ^ 7 = 128 from rfl, Nat.mod_eq_of_lt hone]

/-! ## Loads, logic and the random byte: one register, no flag -/

/-- Settles O13: both loads are one register write. -/
theorem loadsWriteTheirRegister : Obligations.LoadsWriteTheirRegister :=
  fun x y nn s =>
    ⟨⟨_, rfl, writesOneRegister_setV_finish s x nn⟩, ⟨_, rfl, writesOneRegister_setV_finish s x (s.getV y)⟩⟩

/-- Settles O14: one register write, of the wrapping sum. -/
theorem addImmediateWrapsWithoutFlag : Obligations.AddImmediateWrapsWithoutFlag := by
  intro x nn s
  refine ⟨_, rfl, ?_⟩
  rw [← add_eq_ofNat]
  exact writesOneRegister_setV_finish s x (s.getV x + nn)

/-- Settles O15: one register write each, of a byte known bit by bit. -/
theorem logicIsBitwiseWithoutFlag : Obligations.LogicIsBitwiseWithoutFlag :=
  fun x _ s =>
    ⟨⟨_, _, rfl, writesOneRegister_setV_finish s x _, fun _ _ => BitVec.getLsbD_or⟩,
      ⟨_, _, rfl, writesOneRegister_setV_finish s x _, fun _ _ => BitVec.getLsbD_and⟩,
      ⟨_, _, rfl, writesOneRegister_setV_finish s x _, fun _ _ => BitVec.getLsbD_xor⟩⟩

/-- Settles O19: one register write, of a byte that under each bit of the mask is the bit of `RAND` or 0. -/
theorem randomByteUnderTheMask : Obligations.RandomByteUnderTheMask := by
  intro x nn s
  refine ⟨_, _, rfl, writesOneRegister_setV_finish s x (s.inputs.rand &&& nn), fun k _ => ?_⟩
  rw [BitVec.getLsbD_and]
  cases nn.getLsbD k with
  | false => exact Bool.and_false _
  | true => exact Bool.and_true _

/-! ## Additions, subtractions and shifts: one register, then the flag -/

/-- Settles O16: the wrapping sum, then the carry. -/
theorem addRegisterSetsCarry : Obligations.AddRegisterSetsCarry := by
  intro x y s
  refine ⟨_, rfl, ?_⟩
  rw [← add_eq_ofNat, ← flagByte_decide]
  exact writesRegisterThenFlag_setVThenFlag_finish s x _ _

/-- Settles O17: the wrapping difference, then not-borrow, with the operands in either order. -/
theorem subtractsSetNotBorrow : Obligations.SubtractsSetNotBorrow := by
  intro x y s
  simp only [← sub_eq_ofNat, ← flagByte_decide]
  exact ⟨⟨_, rfl, writesRegisterThenFlag_setVThenFlag_finish s x _ _⟩,
    ⟨_, rfl, writesRegisterThenFlag_setVThenFlag_finish s x _ _⟩⟩

/-- Settles O18: the shifted source, then the bit shifted out. -/
theorem shiftsByOneSetTheBitShiftedOut : Obligations.ShiftsByOneSetTheBitShiftedOut := by
  intro x y s source hsource
  obtain rfl : source = shiftSource x y s := hsource
  simp only [← shiftRight_one_eq_ofNat, ← shiftLeft_one_eq_ofNat, ← lowBitFlag_eq_ofNat, ← highBitFlag_eq_ofNat]
  exact ⟨⟨_, rfl, writesRegisterThenFlag_setVThenFlag_finish s x _ _⟩,
    ⟨_, rfl, writesRegisterThenFlag_setVThenFlag_finish s x _ _⟩⟩

end Sys2Proof.Machine
end

section
/-! PROOFS. The obligations about the index register and memory transfers (`42_index_memory.md`): what a bounded
instruction does outside memory, the bytes a store leaves, and the index after each instruction. -/

namespace Sys2Proof.Machine

/-! ## The bounds check of a transfer -/

/-- A bounded instruction with an address outside memory raises `OutOfBounds` for the lowest one, and does nothing else
(R54; log 15). -/
theorem exec_raisesOnly_of_outside {i : Instr} {count : Nat} {s effect : State}
    (hexec : exec i s = .next (withBounds i count s effect)) (hcount : 1 ≤ count) (hout : 4096 < s.i.toNat + count) :
    ∃ t a, exec i s = .next t ∧ a.toNat = max s.i.toNat 0x1000 ∧
      RaisesOnly s t ⟨.outOfBounds, some (encode i), s.pc, a⟩ := by
  obtain ⟨a, ha, hraise⟩ := withBounds_of_outside (i := i) (effect := effect) hcount hout
  exact ⟨_, a, hexec.trans (congrArg _ hraise), ha, rfl⟩

/-- An `LD B,Vx` inside memory completes (R144). -/
theorem exec_ldB_of_inside {x : Reg} {s : State} (h : s.i.toNat + 2 < 4096) :
    exec (.ldB x) s = .next { s with mem := s.mem.writeBytes s.i.toNat (bcdDigits (s.getV x)) }.finish :=
  congrArg _ (withBounds_of_inside (by omega))

/-- A bulk load inside memory completes (R146). -/
theorem exec_ldRegs_of_inside {x : Reg} {s : State} (h : s.i.toNat + x.val < 4096) :
    exec (.ldRegs x) s = .next { s with v := regsLoaded x s, i := indexAfterBulk x s }.finish :=
  congrArg _ (withBounds_of_inside (by omega))

/-! ## The values written -/

/-- After a BCD store inside memory the three bytes are the digits as numbers, none of them truncated (R144). -/
theorem toNat_read_writeBytes_bcdDigits (m : Memory) {a : Nat} (b : Byte) (h : a + 2 < 4096) :
    ((m.writeBytes a (bcdDigits b)).read a).toNat = b.toNat / 100 ∧
      ((m.writeBytes a (bcdDigits b)).read (a + 1)).toNat = b.toNat / 10 % 10 ∧
      ((m.writeBytes a (bcdDigits b)).read (a + 2)).toNat = b.toNat % 10 := by
  have digit (k : Fin 3) : (m.writeBytes a (bcdDigits b)).read (a + k.val) = (bcdDigits b)[k.val] :=
    read_writeBytes_of_inside m a k.val (bcdDigits b) k.isLt (by rw [length_bcdDigits]; omega)
  have value {d : Nat} (hd : d < 256) : (BitVec.ofNat 8 d).toNat = d := Nat.mod_eq_of_lt hd
  exact ⟨(congrArg BitVec.toNat (digit 0)).trans (value (by omega)),
    (congrArg BitVec.toNat (digit 1)).trans (value (by omega)),
    (congrArg BitVec.toNat (digit 2)).trans (value (by omega))⟩

/-- The index after a bulk transfer inside memory does not wrap (R145, R146; log 21). -/
theorem toNat_indexAfterBulk {x : Reg} {s : State} (h : s.i.toNat + x.val < 4096) :
    (indexAfterBulk x s).toNat = s.i.toNat + if s.params.qLsIncI then x.val + 1 else 0 := by
  unfold indexAfterBulk
  split
  · rw [BitVec.toNat_add, BitVec.toNat_ofNat]
    omega
  · rfl

/-- Five times a byte has 16 bits (R143; log 34). -/
theorem toNat_zext16_mul_five (b : Byte) : (zext16 b * 5).toNat = b.toNat * 5 := by
  rw [BitVec.toNat_mul, toNat_zext16, show (5 : Word).toNat = 5 from rfl]
  omega

/-! ## Transfers -/

/-- Settles O22: the three digits stored, or the raise. -/
theorem bcdStoresThreeDigits : Obligations.BcdStoresThreeDigits := by
  intro x s
  constructor
  · intro hin
    obtain ⟨hundreds, tens, units⟩ := toNat_read_writeBytes_bcdDigits s.mem (s.getV x) hin
    refine ⟨_, exec_ldB_of_inside hin, hundreds, tens, units, fun a ha => ?_, rfl⟩
    exact read_writeBytes_of_outside _ _ _ _ (by rw [length_bcdDigits]; omega)
  · exact fun hout => exec_raisesOnly_of_outside rfl (by omega) (by omega)

/-- Settles O23: the registers stored, or the raise. -/
theorem bulkStoreWritesTheRegisters : Obligations.BulkStoreWritesTheRegisters := by
  intro x s
  constructor
  · intro hin
    refine ⟨_, exec_stRegs_of_inside hin, fun k hk => read_writeBytes_regsUpTo hk hin, fun a ha => ?_,
      toNat_indexAfterBulk hin, rfl⟩
    exact read_writeBytes_of_outside _ _ _ _ (by rw [length_regsUpTo]; omega)
  · exact fun hout => exec_raisesOnly_of_outside rfl (by omega) (by omega)

/-- Settles O24: the registers loaded, or the raise. -/
theorem bulkLoadReadsTheRegisters : Obligations.BulkLoadReadsTheRegisters := by
  intro x s
  constructor
  · exact fun hin => ⟨_, exec_ldRegs_of_inside hin, getElem_regsLoaded x s, toNat_indexAfterBulk hin, rfl⟩
  · exact fun hout => exec_raisesOnly_of_outside rfl (by omega) (by omega)

/-! ## The index register -/

/-- Settles O20: one write of the index each, the second of a product that does not wrap. -/
theorem indexLoads : Obligations.IndexLoads :=
  fun _ x s => ⟨rfl, _, rfl, toNat_zext16_mul_five (s.getV x), rfl⟩

/-- Under `Q_ADDI_VF` the flag is written after the index (R142). -/
theorem exec_addI_of_flag {x : Reg} {s : State} (h : s.params.qAddiVf = true) :
    exec (.addI x) s = .next ({ s with i := s.i + zext16 (s.getV x) }.setV regVF
      (indexFlag s.params.addiVfLimit s.i (s.getV x))).finish :=
  congrArg (fun t : State => (.next t.finish : Answer)) (if_pos h)

/-- Without `Q_ADDI_VF` only the index is written (R142). -/
theorem exec_addI_of_no_flag {x : Reg} {s : State} (h : s.params.qAddiVf = false) :
    exec (.addI x) s = .next { s with i := s.i + zext16 (s.getV x) }.finish :=
  congrArg (fun t : State => (.next t.finish : Answer)) (if_neg (Bool.eq_false_iff.1 h))

/-- Settles O21: the wrapping sum, and the flag under the quirk as the last write. -/
theorem addToIndexWrapsAndMayFlag : Obligations.AddToIndexWrapsAndMayFlag := by
  intro x s
  have hsum : (s.i + zext16 (s.getV x)).toNat = (s.i.toNat + (s.getV x).toNat) % 65536 := by
    rw [BitVec.toNat_add, toNat_zext16]
  cases hq : s.params.qAddiVf with
  | true =>
    refine ⟨_, exec_addI_of_flag hq, hsum, fun _ hr => getV_setV_ne _ _ hr, ?_, rfl⟩
    exact (getV_setV_same _ regVF _).trans (flagByte_decide _)
  | false => exact ⟨_, exec_addI_of_no_flag hq, hsum, fun _ _ => rfl, rfl, rfl⟩

end Sys2Proof.Machine
end

section
/-! PROOFS. The obligations about the display (`43_display.md`): the pixels a sprite covers are the distinct places
`DRW` toggles, so a completed draw is known pixel by pixel, and a second one undoes it. -/

namespace Sys2Proof.Machine

/-! ## Clearing the screen -/

/-- Settles O26: a cleared buffer, and nothing else moves. -/
theorem clearScreenClearsEveryPixel : Obligations.ClearScreenClearsEveryPixel :=
  fun _ => ⟨_, rfl, pixel_clear, rfl⟩

/-! ## The pixels of a sprite -/

/-- The places `DRW Vx,Vy,n` toggles, in its order (R162). -/
def drawnPoints (x y : Reg) (n : Nat) (s : State) : List Point :=
  spritePoints (s.getV x) (s.getV y) 0 (spriteRows n s)

/-- What `DRW` toggles is what the sprite covers (R162). -/
theorem mem_drawnPoints {x y : Reg} {n : Nat} {s : State} {p : Point} :
    p ∈ drawnPoints x y n s ↔ SpriteCovers s x y n p := by
  simp only [drawnPoints, mem_spritePoints, spriteRows, length_readBytes, getElem_readBytes, spritePoint,
    Nat.zero_add, SpriteCovers, Prod.ext_iff, Fin.ext_iff, Fin.val_ofNat, State.getV, exists_prop,
    exists_and_left]

/-- A sprite of at most 15 rows covers no pixel twice (R163). -/
theorem nodup_drawnPoints (x y : Reg) {n : Nat} (s : State) (hn : n < 16) : (drawnPoints x y n s).Nodup :=
  nodup_spritePoints _ _ _ _ (by rw [spriteRows, length_readBytes]; omega)

/-! ## A completed draw -/

/-- The flag byte tells whether its condition holds (R11). -/
theorem flagByte_eq_one_iff {b : Bool} : flagByte b = 1 ↔ b = true := by
  cases b <;> decide

/-- The state a completed `DRW Vx,Vy,n` leaves (R162). -/
def afterDraw (x y : Reg) (n : Nat) (s : State) : State :=
  ({ s with fb := (toggleAll (drawnPoints x y n s) (s.fb, false)).1, render := true }.setV regVF
    (collisionFlag (toggleAll (drawnPoints x y n s) (s.fb, false)).2)).finish

/-- With every row inside memory, or with no row, `DRW` completes (R54, R162). -/
theorem exec_drw_of_inside {x y : Reg} {n : Nat} {s : State} (h : n = 0 ∨ s.i.toNat + n ≤ 4096) :
    exec (.drw x y n) s = .next (afterDraw x y n s) := by
  obtain rfl | h := h
  · exact congrArg _ (withBounds_of_zero (i := .drw x y 0) (s := s))
  · exact congrArg _ (withBounds_of_inside h)

section
variable {x y : Reg} {n : Nat} {s : State} {p : Point}

/-- A draw inverts the pixels the sprite covers (R162). -/
theorem pixel_afterDraw_of_covered (hn : n < 16) (hp : SpriteCovers s x y n p) :
    (afterDraw x y n s).fb.pixel p = !s.fb.pixel p :=
  (pixel_toggleAll (nodup_drawnPoints x y s hn) s.fb false p).trans (by simp [mem_drawnPoints, hp])

/-- A draw leaves the other pixels alone (R162). -/
theorem pixel_afterDraw_of_uncovered (hn : n < 16) (hp : ¬ SpriteCovers s x y n p) :
    (afterDraw x y n s).fb.pixel p = s.fb.pixel p :=
  (pixel_toggleAll (nodup_drawnPoints x y s hn) s.fb false p).trans (by simp [mem_drawnPoints, hp])

/-- A draw writes no register but `VF` (R162). -/
theorem getV_afterDraw_ne {r : Reg} (hr : r ≠ 15) : (afterDraw x y n s).getV r = s.getV r :=
  getV_setV_ne _ _ hr

/-- `VF` after a draw is a flag: whether one of the toggled pixels was lit before the draw (R162, R163). -/
theorem getV_afterDraw_flag (hn : n < 16) :
    (afterDraw x y n s).getV 15 = flagByte ((drawnPoints x y n s).any fun p => s.fb.pixel p) := by
  have hhit := hit_toggleAll (nodup_drawnPoints x y s hn) s.fb false
  rw [Bool.false_or] at hhit
  exact (getV_setV_same _ regVF _).trans (congrArg flagByte hhit)

/-- `VF` after a draw is 1 exactly when a covered pixel was lit before it (R162, R163). -/
theorem getV_afterDraw_flag_eq_one_iff (hn : n < 16) :
    (afterDraw x y n s).getV 15 = 1 ↔ ∃ p, SpriteCovers s x y n p ∧ s.fb.pixel p = true := by
  simp only [getV_afterDraw_flag hn, flagByte_eq_one_iff, List.any_eq_true, mem_drawnPoints]

/-- `VF` after a draw is 0 when every covered pixel was unlit before it (R162, R163). -/
theorem getV_afterDraw_flag_eq_zero (hn : n < 16) (hunlit : ∀ p, SpriteCovers s x y n p → s.fb.pixel p = false) :
    (afterDraw x y n s).getV 15 = 0 := by
  have hany : ((drawnPoints x y n s).any fun p => s.fb.pixel p) = false :=
    List.any_eq_false.2 fun p hp => Bool.eq_false_iff.1 (hunlit p (mem_drawnPoints.1 hp))
  rw [getV_afterDraw_flag hn, hany]
  rfl

/-- A draw at a position not held in `VF` leaves the sprite and its position alone (R163). -/
theorem spriteCovers_afterDraw (hx : x ≠ 15) (hy : y ≠ 15) :
    SpriteCovers (afterDraw x y n s) x y n p ↔ SpriteCovers s x y n p := by
  rw [← mem_drawnPoints, ← mem_drawnPoints, drawnPoints, getV_afterDraw_ne hx, getV_afterDraw_ne hy]
  rfl

/-- A second draw of the same sprite inverts the covered pixels back (R163). -/
theorem fb_afterDraw_afterDraw (hn : n < 16) (hx : x ≠ 15) (hy : y ≠ 15) :
    (afterDraw x y n (afterDraw x y n s)).fb = s.fb := by
  refine frame_ext fun p => ?_
  by_cases hp : SpriteCovers s x y n p
  · rw [pixel_afterDraw_of_covered hn ((spriteCovers_afterDraw hx hy).2 hp), pixel_afterDraw_of_covered hn hp,
      Bool.not_not]
  · rw [pixel_afterDraw_of_uncovered hn (mt (spriteCovers_afterDraw hx hy).1 hp),
      pixel_afterDraw_of_uncovered hn hp]

/-- A covered pixel is lit after a draw exactly when it was unlit before (R162). -/
theorem covered_and_lit_afterDraw_iff (hn : n < 16) :
    SpriteCovers s x y n p ∧ (afterDraw x y n s).fb.pixel p = true ↔
      SpriteCovers s x y n p ∧ s.fb.pixel p = false :=
  and_congr_right fun hp => by rw [pixel_afterDraw_of_covered hn hp, Bool.not_eq_true']

end

/-! ## Drawing -/

/-- Settles O27: a completed draw pixel by pixel and its flag, or the raise. -/
theorem drawXorsTheCoveredPixels : Obligations.DrawXorsTheCoveredPixels := by
  intro x y n s hn
  constructor
  · intro hin
    exact ⟨_, exec_drw_of_inside hin, fun _ => pixel_afterDraw_of_covered hn,
      fun _ => pixel_afterDraw_of_uncovered hn, (getV_afterDraw_flag_eq_one_iff hn).2,
      getV_afterDraw_flag_eq_zero hn, fun _ => getV_afterDraw_ne, rfl⟩
  · rintro ⟨hrow, hout⟩
    exact exec_raisesOnly_of_outside rfl hrow hout

/-- Settles O28: the second draw covers the pixels of the first, each inverted since. -/
theorem drawTwiceRestoresTheBuffer : Obligations.DrawTwiceRestoresTheBuffer := by
  intro x y n s t u hn hin hx hy ht hu
  cases (exec_drw_of_inside hin).symm.trans ht
  cases (exec_drw_of_inside (s := afterDraw x y n s) hin).symm.trans hu
  refine ⟨fb_afterDraw_afterDraw hn hx hy, (getV_afterDraw_flag_eq_one_iff hn).trans (exists_congr fun p => ?_)⟩
  rw [spriteCovers_afterDraw hx hy, covered_and_lit_afterDraw_iff hn]

end Sys2Proof.Machine
end

section
/-! PROOFS. The obligations about the keypad and the timers (`44_keypad_timers.md`): the key queries by whether `V[x]` is a
key number, the wait for a key, and the copies to and from the timers. -/

namespace Sys2Proof.Machine

/-! ## Key queries -/

section
variable {x : Reg} {s : State}

/-- `SKP` of a key number skips on the key's bit of `KEYS` (R171). -/
theorem exec_skp_of_key (h : (s.getV x).toNat ≤ 15) :
    exec (.skp x) s = .next (s.finishSkip (s.inputs.keys.getLsbD (s.getV x).toNat)) := by
  simp only [exec, execSkp, keyNumber_of_lt (Nat.lt_succ_of_le h), keyDown]

/-- `SKNP` of a key number skips on the negation of the key's bit of `KEYS` (R172). -/
theorem exec_sknp_of_key (h : (s.getV x).toNat ≤ 15) :
    exec (.sknp x) s = .next (s.finishSkip (!s.inputs.keys.getLsbD (s.getV x).toNat)) := by
  simp only [exec, execSknp, keyNumber_of_lt (Nat.lt_succ_of_le h), keyDown]

/-- `SKP` of a number above 15 raises (R171; log 18). -/
theorem exec_skp_of_no_key (h : 15 < (s.getV x).toNat) :
    exec (.skp x) s = .next (s.raise .keyIndexOutOfRange (some (encode (.skp x))) s.pc) := by
  simp only [exec, execSkp, keyNumber_of_ge h]

/-- `SKNP` of a number above 15 raises (R172; log 18). -/
theorem exec_sknp_of_no_key (h : 15 < (s.getV x).toNat) :
    exec (.sknp x) s = .next (s.raise .keyIndexOutOfRange (some (encode (.sknp x))) s.pc) := by
  simp only [exec, execSknp, keyNumber_of_ge h]

end

/-- Settles O29: the two skips on the key's bit, or the two raises. -/
theorem keySkipsFollowTheKey : Obligations.KeySkipsFollowTheKey := by
  intro x s
  refine ⟨fun hkey => ⟨?_, ?_⟩, fun hno => ⟨⟨_, exec_skp_of_no_key hno, rfl⟩, ⟨_, exec_sknp_of_no_key hno, rfl⟩⟩⟩
  · exact (exec_skp_of_key hkey).trans (next_finishSkip_of_iff s Iff.rfl)
  · rw [exec_sknp_of_key hkey, next_finishSkip_of_iff s Bool.not_iff_not, ite_not]
    rfl

/-! ## The wait for a key -/

/-- With a key down `LD Vx,K` writes its code and completes (R173; log 28). -/
theorem exec_ldVxK_of_key {x : Reg} {s : State} {k : Key} (h : s.inputs.anyKey = some k) :
    exec (.ldVxK x) s = .next (s.setV x (keyByte k)).finish := by
  simp only [exec, execLdVxK, h]

/-- Settles O30: one register write for a key that is down, else the wait. -/
theorem getKeyWaitsWithoutChange : Obligations.GetKeyWaitsWithoutChange :=
  fun x s =>
    ⟨fun k hk => ⟨_, exec_ldVxK_of_key hk, writesOneRegister_setV_finish s x (keyByte k)⟩, exec_ldVxK_of_no_key⟩

/-! ## The timers -/

/-- Settles O32: one write of a register or of a timer each. -/
theorem timerCopies : Obligations.TimerCopies :=
  fun x s => ⟨⟨_, rfl, writesOneRegister_setV_finish s x s.dt⟩, rfl, rfl⟩

end Sys2Proof.Machine
end

section
/-! PROOFS. The obligations about fatal conditions and the halted core (`60_exceptions.md`): what each event answers, what
leaves the halted state, what a raising step leaves and records, and the unknown word. -/

namespace Sys2Proof.Machine

/-! ## What an event answers -/

/-- A step event answers what the front of the step has decided, where no instruction runs (R247). -/
theorem StepEvent.step_of_over {s t : State} {answer : Answer} (ht : StepEvent s t)
    (hfront : frontEnd t = .over answer) : step s = answer :=
  Machine.step_of_over ((takeTurn_of_stepEvent ht).trans hfront)

/-- A step event answers what the instruction does that the front of the step comes to (R247). -/
theorem StepEvent.step_of_run {s t : State} {i : Instr} (ht : StepEvent s t) (hfront : frontEnd t = .run i t) :
    step s = exec i t :=
  Machine.step_of_run ((takeTurn_of_stepEvent ht).trans hfront)

/-- A tick event is the tick, once the event is taken off (R220, R247). -/
theorem step_of_tick {s : State} (h : s.nextEvent = .tick) : step s = .next s.popEvent.tick :=
  step_of_over (by rw [takeTurn, h])

/-- A `render_ack` event is the acknowledgement, once the event is taken off (R224, R247). -/
theorem step_of_renderAck {s : State} (h : s.nextEvent = .renderAck) : step s = .next s.popEvent.renderAck :=
  step_of_over (by rw [takeTurn, h])

/-- A reset event is the reset, once the event is taken off (R240, R247). -/
theorem step_of_reset {s : State} {boot : Boot} (h : s.nextEvent = .reset boot) :
    step s = s.popEvent.resetEvent boot :=
  step_of_over (by rw [takeTurn, h])

/-- Settles O39: the event is the acknowledgement, halted or not. -/
theorem renderAckClearsTheFlag : Obligations.RenderAckClearsTheFlag := fun _ h => step_of_renderAck h

/-- Settles O47: whether the instruction completes or raises, it answers a state. -/
theorem everyInstructionAnswersANextState : Obligations.EveryInstructionAnswersANextState :=
  fun i s => (exec_cases i s).imp fun _ => And.left

/-- A step event answers a next state, whatever the front of the step comes to (R200, R213). -/
theorem StepEvent.exists_next {s t : State} (ht : StepEvent s t) : ∃ u, step s = .next u := by
  obtain ⟨r, -, he⟩ | ⟨-, a, -, he⟩ | ⟨-, -, -, he⟩ | ⟨-, -, i, -, he⟩ := frontEnd_cases t
  · exact ⟨_, ht.step_of_over he⟩
  · exact ⟨_, ht.step_of_over he⟩
  · exact ⟨_, ht.step_of_over he⟩
  · obtain ⟨u, hu⟩ := everyInstructionAnswersANextState i t
    exact ⟨u, (ht.step_of_run he).trans hu⟩

/-- Settles O48, event by event: only a reset can have an answer that is no state. -/
theorem onlyAnOversizeLoadStops : Obligations.OnlyAnOversizeLoadStops := by
  intro s
  cases he : s.nextEvent with
  | step p => exact .inl (StepEvent.exists_next ⟨p, he, rfl⟩)
  | tick => exact .inl ⟨_, step_of_tick he⟩
  | renderAck => exact .inl ⟨_, step_of_renderAck he⟩
  | reset boot =>
    obtain ⟨-, hr⟩ | ⟨hlong, hr⟩ := resetEvent_cases s.popEvent boot
    · exact .inl ⟨_, (step_of_reset he).trans hr⟩
    · exact .inr ⟨(step_of_reset he).trans hr, boot, rfl, hlong⟩

/-! ## The halted core -/

/-- The front of a halted core's step reports the record again (R213). -/
theorem frontEnd_of_halted {s : State} {record : FaultRecord} (h : s.fault = some record) :
    frontEnd s = .over (.next { s with result := some (.fault record) }) := by
  simp only [frontEnd, h]

/-- Settles O37: the step ends at its front, and the tick is ignored. -/
theorem haltedCoreDoesNothing : Obligations.HaltedCoreDoesNothing := by
  intro s t record h
  constructor
  · exact fun ht => ht.step_of_over (frontEnd_of_halted (ht.fault_eq.trans h))
  · exact fun he => (step_of_tick he).trans (congrArg _ (tick_of_halted ((popEvent_fault s).trans h)))

/-- Taking the host's next event off moves the model's own fields only (log 1, log 3). -/
theorem popEvent_frame (s : State) :
    s.popEvent = { s with schedule := s.popEvent.schedule, drawn := s.popEvent.drawn } := by
  unfold State.popEvent
  split <;> rfl

/-- Settles O46, event by event: a halted core's step ends at its front, its tick is ignored, `render_ack` clears
`RENDER`, and there is no other event but reset. -/
theorem onlyResetLeavesTheHaltedState : Obligations.OnlyResetLeavesTheHaltedState := by
  intro s t record hhalt hreset h
  cases stepped_of_step h with
  | halted event _ => rw [stepEvent_frame event]
  | badFetch event run | unknown event run | executed event run =>
    cases hhalt.symm.trans (event.fault_eq.symm.trans run)
  | ticked _ => rw [tick_of_halted ((popEvent_fault s).trans hhalt), popEvent_frame]
  | acknowledged _ => rw [popEvent_frame]; rfl
  | restarted event _ => exact absurd event (hreset _)

/-! ## Raising a fatal condition -/

/-- What each instruction can raise, the other way round: which instructions raise a cause (R209). -/
theorem CanRaise.cases {i : Instr} {c : Cause} (h : CanRaise i c) :
    (c = .stackOverflow ∧ ∃ nnn, i = .call nnn) ∨ (c = .stackUnderflow ∧ i = .ret) ∨
    (c = .outOfBounds ∧ ∃ x, i = .ldB x ∨ i = .stRegs x ∨ i = .ldRegs x ∨ ∃ y n, i = .drw x y n) ∨
    (c = .keyIndexOutOfRange ∧ ∃ x, i = .skp x ∨ i = .sknp x) := by
  cases i with
  | call nnn => exact .inl ⟨h, nnn, rfl⟩
  | ret => exact .inr (.inl ⟨h, rfl⟩)
  | ldB x => exact .inr (.inr (.inl ⟨h, x, .inl rfl⟩))
  | stRegs x => exact .inr (.inr (.inl ⟨h, x, .inr (.inl rfl)⟩))
  | ldRegs x => exact .inr (.inr (.inl ⟨h, x, .inr (.inr (.inl rfl))⟩))
  | drw x y n => exact .inr (.inr (.inl ⟨h, x, .inr (.inr (.inr ⟨y, n, rfl⟩))⟩))
  | skp x => exact .inr (.inr (.inr ⟨h, x, .inl rfl⟩))
  | sknp x => exact .inr (.inr (.inr ⟨h, x, .inr rfl⟩))
  | _ => exact h.elim

/-- An instruction that halts a running core raised a condition of its own and did nothing else (R200, R209). -/
theorem exec_raises {i : Instr} {s t : State} (h : exec i s = .next t) (hrun : s.fault = none)
    (hfault : t.fault ≠ none) : ∃ c a, CanRaise i c ∧ t = s.raise c (some (encode i)) a :=
  (exec_next_cases h).resolve_left fun hc => hfault (hc.fault_eq.trans hrun)

/-- Settles O45: what halts the core is a raise of the instruction's own. -/
theorem eachInstructionRaisesOneCauseAtMost : Obligations.EachInstructionRaisesOneCauseAtMost := by
  intro i s t record h hrun hrecord
  obtain ⟨c, a, hc, rfl⟩ := exec_raises h hrun (hrecord ▸ Option.some_ne_none record)
  cases hrecord
  exact hc.cases

/-- The word of an instruction that can raise is its encoding: `5xy_` and `9xy_`, which ignore a nibble, raise nothing
(R69, R209; log 32). -/
theorem CanRaise.eq_encode {i : Instr} {c : Cause} {w : Word} (hc : CanRaise i c) (hd : decodeWord w = some i) :
    w = encode i := by
  obtain he | ⟨⟨x, y, rfl | rfl⟩, -⟩ := isWordOf_of_decodeWord hd
  · exact he
  · exact hc.elim
  · exact hc.elim

/-- An unknown opcode that halts a running core raised its condition and did nothing else (R202). -/
theorem unknownOpcode_raises {s : State} {w : Word} (hrun : s.fault = none)
    (hfault : (s.unknownOpcode w).fault ≠ none) : s.unknownOpcode w = s.raise .unknownOpcode (some w) s.pc := by
  obtain ⟨-, he⟩ | ⟨-, he⟩ := unknownOpcode_cases s w
  · rw [he] at hfault
    exact absurd hrun hfault
  · exact he

/-- A step event that halts a running core raised a condition and did nothing else; the record carries the word fetched,
if the fetch succeeded (R200, R211). -/
theorem StepEvent.raises {s t u : State} (ht : StepEvent s t) (hrun : t.fault = none) (h : step s = .next u)
    (hfault : u.fault ≠ none) :
    ∃ c o a, u = t.raise c o a ∧ (t.pc.toNat ≤ 0x0FFE → o = some t.fetchedWord) := by
  obtain ⟨r, hr, -⟩ | ⟨-, a, hb, he⟩ | ⟨-, -, -, he⟩ | ⟨-, -, i, hd, he⟩ := frontEnd_cases t
  · cases hrun.symm.trans hr
  · cases (ht.step_of_over he).symm.trans h
    have hout := (boundsFault_eq_some.1 hb).2.1
    exact ⟨_, _, _, rfl, fun hpc => by omega⟩
  · cases (ht.step_of_over he).symm.trans h
    exact ⟨_, _, _, unknownOpcode_raises hrun hfault, fun _ => rfl⟩
  · obtain ⟨c, a, hc, hu⟩ := exec_raises ((ht.step_of_run he).symm.trans h) hrun hfault
    exact ⟨_, _, _, hu, fun _ => congrArg some (hc.eq_encode hd).symm⟩

/-- Settles O43: the record is the one the raise forms, and its address is the `PC` the step event finds. -/
theorem raisingStepIsPrecise : Obligations.RaisingStepIsPrecise := by
  intro s t u ht hrun h hfault
  obtain ⟨c, o, a, rfl, -⟩ := ht.raises (ht.fault_eq.trans hrun) h hfault
  exact ⟨⟨c, o, t.pc, a⟩, rfl, ht.pc_eq⟩

/-- Settles O44: where the step event finds a word at `PC`, the raise has that word. -/
theorem faultRecordCarriesTheFetchedWord : Obligations.FaultRecordCarriesTheFetchedWord := by
  intro s t u w record ht hrun hw h hrecord
  have hwt := hw.stepEvent ht
  obtain ⟨c, o, a, rfl, ho⟩ := ht.raises (ht.fault_eq.trans hrun) h (hrecord ▸ Option.some_ne_none record)
  cases hrecord
  exact (ho hwt.1).trans (congrArg some (fetchedWord_of_wordAtPc hwt))

/-! ## An unknown word -/

/-- A step event finds the parameters as the state before it has them (R4, R247). -/
theorem StepEvent.params_eq {s t : State} (h : StepEvent s t) : t.params = s.params := by rw [stepEvent_frame h]

/-- A running machine with an unknown word at `PC` comes to the unknown opcode (R44, R202). -/
theorem frontEnd_of_unknown {s : State} {w : Word} (hrun : s.fault = none) (hw : WordAtPc s w)
    (hd : decodeWord w = none) : frontEnd s = .over (.next (s.unknownOpcode w)) := by
  have hb : boundsFault s.pc 2 = none := boundsFault_eq_none.2 (.inr (by have := hw.1; omega))
  simp only [frontEnd, hrun, hb, fetchedWord_of_wordAtPc hw, hd]

/-- Settles O36: the two settings of `SKIP_UNKNOWN`, in the state the step event finds. -/
theorem unknownOpcodeFaultsOrIsSkipped : Obligations.UnknownOpcodeFaultsOrIsSkipped := by
  intro s t w ht hrun hw hd
  have hstep := ht.step_of_over (frontEnd_of_unknown (ht.fault_eq.trans hrun) (hw.stepEvent ht) hd)
  rw [← ht.params_eq, ← ht.pc_eq]
  obtain ⟨hskip, he⟩ | ⟨hfatal, he⟩ := unknownOpcode_cases t w <;> rw [he] at hstep
  · exact ⟨fun hfatal => (nomatch hskip.symm.trans hfatal), fun _ => hstep⟩
  · exact ⟨fun _ => ⟨_, hstep, rfl⟩, fun hskip => (nomatch hskip.symm.trans hfatal)⟩

end Sys2Proof.Machine
end

section
/-! PROOFS. The obligations about reset and the hazards (`70_reset_and_hazards.md`): what a reset event builds, where it
enters, and the jump to its own address. -/

namespace Sys2Proof.Machine

/-! ## Memory after a boot -/

/-- Past the font, an address that is not listed reads as zero (R30, R41). -/
theorem unlisted_of_past_font {a : Nat} (h : 0x50 ≤ a) : Memory.unlisted a = 0 :=
  List.getD_eq_default defaultFont 0x00 h

section
variable {font : Vector Byte 80} {program : List Byte}

/-- The font is at `0x000`, out of the program's way (R242). -/
theorem read_bootMemory_font {j : Nat} (hj : j < 80) : (bootMemory font.toList program).read j = font[j] := by
  have hlen : font.toList.length = 80 := font.length_toList
  have hfont := read_writeBytes_of_inside [] 0 j font.toList (by omega) (by omega)
  rw [Nat.zero_add, Vector.getElem_toList] at hfont
  rw [bootMemory, read_writeBytes_of_outside _ _ _ _ (.inl (Nat.lt_trans hj (by decide))), hfont]

/-- A program that fits is at `0x200` (R243). -/
theorem read_bootMemory_program (hfits : program.length ≤ 3584) {j : Nat} (hj : j < program.length) :
    (bootMemory font.toList program).read (0x200 + j) = program[j] :=
  read_writeBytes_of_inside _ 0x200 j program hj (by omega)

/-- Between font and program, and past the program, memory is zero (R30). -/
theorem read_bootMemory_elsewhere {a : Nat} (h : 0x50 ≤ a ∧ a < 0x200 ∨ 0x200 + program.length ≤ a) :
    (bootMemory font.toList program).read a = 0 := by
  have hlen : font.toList.length = 80 := font.length_toList
  have hpast : 0x50 ≤ a := by omega
  rw [bootMemory, read_writeBytes_of_outside _ _ _ _ (h.imp_left And.right),
    read_writeBytes_of_outside _ _ _ _ (.inr (by omega))]
  exact unlisted_of_past_font hpast

end

/-! ## The reset event -/

/-- Settles O41: the event is the reset, whose state is fresh but for the model's own fields. -/
theorem resetEventBuildsAFreshState : Obligations.ResetEventBuildsAFreshState := by
  intro s boot he
  rw [step_of_reset he]
  obtain ⟨hfits, hr⟩ | ⟨hlong, hr⟩ := resetEvent_cases s.popEvent boot
  · refine ⟨fun _ => ⟨_, hr, fun j hj => read_bootMemory_font hj, fun j hj => read_bootMemory_program hfits hj,
      fun a ha => read_bootMemory_elsewhere (ha.imp_right And.left), fun r => Vector.getElem_replicate r.isLt,
      fun k => Vector.getElem_replicate k.isLt, pixel_clear, ?_⟩, fun hlong => absurd hfits (Nat.not_le_of_lt hlong)⟩
    exact ⟨rfl, rfl, rfl, rfl, rfl, rfl, rfl, rfl, rfl⟩
  · exact ⟨fun hfits => absurd hfits (Nat.not_le_of_lt hlong), fun _ => hr⟩

/-- Settles O40: whatever it loads, a reset that answers a state answers a fresh one. -/
theorem resetEntersAt0x200 : Obligations.ResetEntersAt0x200 := by
  refine ⟨rfl, fun s t boot he h => ?_⟩
  rw [step_of_reset he] at h
  obtain ⟨-, hr⟩ | ⟨-, hr⟩ := resetEvent_cases s.popEvent boot
  · cases hr.symm.trans h
    rfl
  · cases hr.symm.trans h

/-! ## The jump to its own address -/

/-- A word of family `0x1` decodes to the jump to the address in its other twelve bits (R63, R64). -/
theorem decodeWord_of_jump {w a : Word} (ha : a.toNat < 4096) (hw : w.toNat = 0x1000 + a.toNat) :
    decodeWord w = some (.jp a) := by
  have hword : w = encode (.jp a) := by
    apply BitVec.eq_of_toNat_eq
    simp only [encode, wordNnn, BitVec.toNat_ofNat]
    omega
  rw [hword]
  exact decodeWord_encode (decide_eq_true ha)

/-- Settles O42: the step runs the jump, which writes to `PC` the address it already holds. -/
theorem jumpToSelfChangesNothing : Obligations.JumpToSelfChangesNothing := by
  intro s t w ht hrun hword hw
  have hpc := hword.1
  have hd : decodeWord w = some (.jp s.pc) := decodeWord_of_jump (by omega) hw
  rw [fetchIsBigEndian s t w _ ht hrun hword hd, jumpSetsPcExactly, ← ht.pc_eq]

end Sys2Proof.Machine
end
